-- ==== Sys2Proof/Word.lean ====
section
/-! DEFINITION. The value types of GFCORE (00_scope.md R7, R8, R9): every value is an unsigned bit vector, bit 0 the least
significant, and the name of one of the four element buffers (10_state.md R30). -/

namespace Sys2Proof

/-- One bus word, the width of every admitted access and of the command word (R7, R80). -/
abbrev Word := BitVec 32

/-- The source's Byte, an "integer in [0,255]" (R9): an element of buffers A and B, and a field element of GMUL. -/
abbrev Byte := BitVec 8

/-- The source's Bit, an "integer in {0,1}" (R9): an element of buffer T. -/
abbrev Bit := BitVec 1

/-- An element of the result buffer R: 9 bits, so that a sum of two Bytes fits without masking (R7, R30). -/
abbrev Sum := BitVec 9

/-- The four element buffers (R30), in the order of FLAT's selector (R82). -/
inductive Buffer where
  | a
  | b
  | t
  | r
  deriving DecidableEq, Repr

end Sys2Proof
end

