-- ==== Sys2Proof/Config.lean ====
section
/-! DEFINITION. The implementation parameters of GFCORE (00_scope.md R7, 10_state.md R35, 60_exceptions.md R175). They are
configuration and never change while the block runs. A machine state carries the configuration it was built with, so that a
claim about every state is a claim about every CAP, every BASE and every value of the other open parameters. -/

namespace Sys2Proof

/-- BUS_ENDIAN, the platform bus's byte-lane order: OPEN, and never observable (R7, R56). -/
inductive BusEndian where
  | little
  | big
  deriving DecidableEq, Repr

/-- BUS_ERROR_ACTION, what the host does on a bus error response: OPEN (R175). The spec's two examples, and any other. -/
inductive BusErrorAction where
  | raiseHostException
  | ignore
  | other (n : Nat)
  deriving DecidableEq, Repr

/-- The parameters a GFCORE is built with (R7, R35). -/
structure Config where
  /-- CAP, the element capacity of A, B and R; T holds 8·CAP elements. -/
  cap : Nat
  /-- BASE, the bus address of the 16 KiB window: OPEN. -/
  base : Nat
  /-- BUS_ENDIAN: OPEN, without effect. -/
  busEndian : BusEndian
  /-- BUS_ERROR_ACTION: OPEN; the model faults the run whatever its value. -/
  busErrorAction : BusErrorAction
  deriving DecidableEq, Repr

/-- The configuration of `State.reset`: the spec's default CAP, 256 (R7). DESIGN CHOICE (log entry 2; unsafe for a claim that
names these values): BASE 0 and the first value of each other open parameter, for which the spec gives none. -/
def Config.default : Config :=
  { cap := 256, base := 0, busEndian := .little, busErrorAction := .raiseHostException }

end Sys2Proof
end

