-- ==== Sys2Proof/Syntax.lean ====
section
/-! DEFINITION. The seven commands of GFCORE (30_encoding.md R84, R87), one constructor per row of spec/opcode_table.json. -/

namespace Sys2Proof

/-- A command. GMUL carries its two immediate Bytes GA and GB, FLAT the buffer its SEL field names, and no other command
takes an operand from the command word (R82). -/
inductive Instr where
  | gmul (a b : Byte)
  | b2bits
  | bits2b
  | mbits
  | flat (x : Buffer)
  | mxor
  | msum
  deriving DecidableEq, Repr

end Sys2Proof
end

