-- ==== Sys2Proof/WellFormed.lean ====
section
/-! DEFINITION. Well-formedness of commands and of configurations. -/

namespace Sys2Proof

/-- Every command is well formed: GMUL's literals are 8-bit fields and FLAT's selector names one of four buffers, so the
operand types already hold every bound of 30_encoding.md R81 and R82. -/
def Instr.wellFormed : Instr → Bool
  | .gmul _ _ => true
  | .b2bits => true
  | .bits2b => true
  | .mbits => true
  | .flat _ => true
  | .mxor => true
  | .msum => true

/-- A configuration the spec allows (00_scope.md R7): 1 ≤ CAP ≤ 256 and BASE aligned to 16 KiB. -/
def Config.wellFormed (c : Config) : Bool :=
  decide (1 ≤ c.cap) && decide (c.cap ≤ 256) && decide (c.base % 0x4000 = 0)

end Sys2Proof
end

