-- ==== Sys2Proof/Decode.lean ====
section
/-! DEFINITION. The command word (30_encoding.md R80 to R87): the opcode map, a total decoder that rejects by name, and the
encoder. -/

namespace Sys2Proof

/-- Which row of the opcode map a word selects. -/
inductive Op where
  | gmul
  | b2bits
  | bits2b
  | mbits
  | flat
  | mxor
  | msum
  deriving DecidableEq, Repr

/-- One row of the opcode map (R84). -/
structure OpRow where
  op : Op
  opcode : BitVec 8
  matchWord : Word
  mask : Word
  deriving DecidableEq, Repr

/-- Why a word selects no command (R83, R85). Either reason is the command error ILLEGAL_COMMAND. -/
inductive DecodeError where
  /-- The OPCODE field is not in the map. -/
  | opcodeNotInMap (op : BitVec 8)
  /-- A bit under the row's RSVD mask is 1. -/
  | reservedBitSet (w : Word)
  deriving DecidableEq, Repr

/-- The opcode map, row for row as R84 prints it. -/
def opMap : List OpRow :=
  [ ⟨.gmul,   0x01, 0x01000000, 0xFFFF0000⟩,
    ⟨.b2bits, 0x02, 0x02000000, 0xFFFFFFFF⟩,
    ⟨.bits2b, 0x03, 0x03000000, 0xFFFFFFFF⟩,
    ⟨.mbits,  0x04, 0x04000000, 0xFFFFFFFF⟩,
    ⟨.flat,   0x05, 0x05000000, 0xFFFCFFFF⟩,
    ⟨.mxor,   0x06, 0x06000000, 0xFFFFFFFF⟩,
    ⟨.msum,   0x07, 0x07000000, 0xFFFFFFFF⟩ ]

/-- RSVD(op), the bits below OPCODE that must be 0 (R84): `mask AND 0x00FF_FFFF`. -/
def OpRow.rsvd (row : OpRow) : Word := row.mask &&& 0x00FFFFFF

/-- OPCODE, bits 31:24 (R81). -/
def opcodeField (w : Word) : BitVec 8 := w.extractLsb' 24 8

/-- GA, bits 15:8 (R81). -/
def gaField (w : Word) : Byte := w.extractLsb' 8 8

/-- GB, bits 7:0 (R81). -/
def gbField (w : Word) : Byte := w.extractLsb' 0 8

/-- SEL, bits 17:16 (R81). -/
def selField (w : Word) : BitVec 2 := w.extractLsb' 16 2

/-- `X = [A, B, T, R][sel]` (R82). -/
def selBuffer (sel : BitVec 2) : Buffer :=
  if sel = 0 then .a else if sel = 1 then .b else if sel = 2 then .t else .r

/-- `sel(X)`: 0 = A, 1 = B, 2 = T, 3 = R (R81). -/
def bufferSel : Buffer → BitVec 2
  | .a => 0
  | .b => 1
  | .t => 2
  | .r => 3

/-- The command of a selected row, with the operand fields of R82. -/
def assemble (op : Op) (w : Word) : Instr :=
  match op with
  | .gmul => .gmul (gaField w) (gbField w)
  | .b2bits => .b2bits
  | .bits2b => .bits2b
  | .mbits => .mbits
  | .flat => .flat (selBuffer (selField w))
  | .mxor => .mxor
  | .msum => .msum

/-- The decoding half of `execute` (R83): the opcode must be in the map, then the row's reserved bits must be 0. Total: every
word selects one command or is rejected by name. -/
def decode (w : Word) : Except DecodeError Instr :=
  match opMap.find? (fun row => row.opcode == opcodeField w) with
  | none => .error (.opcodeNotInMap (opcodeField w))
  | some row => if w &&& row.rsvd = 0 then .ok (assemble row.op w) else .error (.reservedBitSet w)

/-- The assembler's encoding of a command, from the table of R87. -/
def encode : Instr → Word
  | .gmul a b => (0x01 : Word) <<< 24 ||| a.setWidth 32 <<< 8 ||| b.setWidth 32
  | .b2bits => 0x02000000
  | .bits2b => 0x03000000
  | .mbits => 0x04000000
  | .flat x => 0x05000000 ||| (bufferSel x).setWidth 32 <<< 16
  | .mxor => 0x06000000
  | .msum => 0x07000000

/-- The row of the opcode map a command belongs to. -/
def Instr.op : Instr → Op
  | .gmul _ _ => .gmul
  | .b2bits => .b2bits
  | .bits2b => .bits2b
  | .mbits => .mbits
  | .flat _ => .flat
  | .mxor => .mxor
  | .msum => .msum

/-- The command an opcode-table word of `nbits` bits selects. There is one 32-bit command word, moved whole, so its byte order
cannot be seen (R56, R80); a number that does not fit a word selects nothing. -/
def decodeTableWord (nbits w : Nat) : Option Instr :=
  if w % 2 ^ nbits < 2 ^ 32 then
    match decode (BitVec.ofNat 32 (w % 2 ^ nbits)) with
    | .ok i => some i
    | .error _ => none
  else none

end Sys2Proof
end

