-- ==== Sys2Proof/Machine/State.lean ====
section
/-! DEFINITION. The architectural state of GFCORE (10_state.md R22 to R36), the host's accesses not yet performed, the values
its reads returned, and the reasons a step can stop. -/

namespace Sys2Proof.Machine

/-- The elements of a buffer, `(index, value)` in strictly rising index. An index not listed is an element that nothing has
written since reset (R32). -/
abbrev Memory (w : Nat) := List (Nat × BitVec w)

/-- The contents of a shape register: ROWS is bits 27:16 and COLS bits 11:0 of its word (R27). -/
structure Shape where
  rows : BitVec 12
  cols : BitVec 12
  deriving DecidableEq, Repr

/-- What the outside can do to GFCORE: a bus access of the host of any width in bytes at any address (20_memory.md R53, R54,
R55), or the platform's reset input (70_reset_and_hazards.md R190). -/
inductive HostEvent where
  /-- `MemRead(addr, n)` -/
  | read (addr n : Nat)
  /-- `MemWrite(addr, n, v)` -/
  | write (addr n : Nat) (v : Word)
  /-- the reset input, between two accesses -/
  | reset
  deriving DecidableEq, Repr

/-- Everything the spec gives the machine (R36), and beside it the configuration (R35) and the run's two lists (R92). -/
structure State where
  /-- STATUS.ECODE, the outcome of the last command (R24). -/
  ecode : BitVec 3
  /-- STATUS.ERR, sticky (R24). -/
  err : Bool
  /-- GMR.P, the last GMUL product (R25). -/
  gmr : Byte
  /-- SHAPE_A (R27). -/
  shapeA : Shape
  /-- SHAPE_B (R27). -/
  shapeB : Shape
  /-- SHAPE_T (R27). -/
  shapeT : Shape
  /-- SHAPE_R (R27). -/
  shapeR : Shape
  /-- Buffer A: CAP Bytes (R30). -/
  bufA : Memory 8
  /-- Buffer B: CAP Bytes (R30). -/
  bufB : Memory 8
  /-- Buffer T: 8·CAP Bits (R30). -/
  bufT : Memory 1
  /-- Buffer R: CAP 9-bit elements (R30). -/
  bufR : Memory 9
  /-- CAP, BASE and the other parameters (R35): configuration, written by no step. -/
  cfg : Config
  /-- The model's own field: the host's accesses not yet performed, the next one first (R62, R92). -/
  pending : List HostEvent
  /-- The model's own field: the values the host's reads returned, the oldest first (R92). -/
  observed : List Word
  deriving DecidableEq, Repr

/-- Why a run stops (60_exceptions.md R178). Command errors are not faults: they are next states with STATUS written. -/
inductive Fault where
  /-- Raised by a bus access that is not admitted (20_memory.md R55, R57; 60_exceptions.md R175). Safe: the block changes
  nothing and what the host then does is open, so the run stops. -/
  | busError (addr : Nat)
  /-- Raised by a host read of an element not written since reset, and by a command that reads one (10_state.md R32). Safe:
  the hardware returns some value, and the model assumes none. -/
  | unwrittenElement (x : Buffer) (i : Nat)
  deriving DecidableEq, Repr

/-- Why a step has no meaning (60_exceptions.md R178). No command of GFCORE needs one. -/
inductive Refusal where
  /-- Raised by an arm of `exec` whose command has no meaning yet; no arm is left so. Safe: the run stops. -/
  | notModelled (mnemonic : String)
  deriving DecidableEq, Repr

/-- The shape (0, 0) that every shape register holds after reset (R22). -/
def Shape.zero : Shape := ⟨0, 0⟩

/-- The state after reset of a GFCORE built with configuration `c` (70_reset_and_hazards.md R191): every register at the value
of R22, every element unwritten, and no access pending or observed. -/
def State.resetWith (c : Config) : State where
  ecode := 0
  err := false
  gmr := 0
  shapeA := Shape.zero
  shapeB := Shape.zero
  shapeT := Shape.zero
  shapeR := Shape.zero
  bufA := []
  bufB := []
  bufT := []
  bufR := []
  cfg := c
  pending := []
  observed := []

/-- The machine right after reset, with the configuration of log entry 2. -/
def State.reset : State := State.resetWith Config.default

end Sys2Proof.Machine
end

