-- ==== Sys2Proof/Machine/Ops.lean ====
section
/-! DEFINITION. The operations over buffers and registers: reading and writing an element, the shape registers, and the block's
reset. Every meaning and every bus access goes through these. -/

namespace Sys2Proof.Machine

/-- The canonical form of a buffer: indices strictly rising, so equal buffers are equal lists. Nothing unlisted has a value,
so no listed entry can repeat what an unlisted index reads as. -/
abbrev Memory.wf {w : Nat} (m : Memory w) : Prop := m.Pairwise (fun p q => p.1 < q.1)

/-- Every written element lies below the buffer's element count `n`. -/
abbrev Memory.below {w : Nat} (n : Nat) (m : Memory w) : Prop := ∀ p ∈ m, p.1 < n

/-- Element `i`, or `none` where nothing has written it since reset (10_state.md R32). -/
def Memory.read {w : Nat} : Memory w → Nat → Option (BitVec w)
  | [], _ => none
  | (j, u) :: m, i => if i = j then some u else Memory.read m i

/-- `elem(X, i) <- v` on one buffer (00_scope.md R11); it keeps the canonical form. -/
def Memory.write {w : Nat} : Memory w → Nat → BitVec w → Memory w
  | [], i, v => [(i, v)]
  | (j, u) :: m, i, v =>
    if i < j then (i, v) :: (j, u) :: m
    else if i = j then (i, v) :: m
    else (j, u) :: Memory.write m i v

/-- Writes the sequence `vs` to the elements from index `i` on. -/
def Memory.writeFrom {w : Nat} (m : Memory w) (i : Nat) : List (BitVec w) → Memory w
  | [] => m
  | v :: vs => Memory.writeFrom (Memory.write m i v) (i + 1) vs

end Sys2Proof.Machine

namespace Sys2Proof

/-- Element width in bits (10_state.md R30). -/
def Buffer.width : Buffer → Nat
  | .a => 8
  | .b => 8
  | .t => 1
  | .r => 9

/-- Element count: CAP for A, B and R, and 8·CAP for T (10_state.md R28, R30). -/
def Buffer.capacity (c : Config) : Buffer → Nat
  | .a => c.cap
  | .b => c.cap
  | .t => 8 * c.cap
  | .r => c.cap

end Sys2Proof

namespace Sys2Proof.Machine

/-- The elements of buffer X. -/
def State.buf (s : State) : (x : Buffer) → Memory x.width
  | .a => s.bufA
  | .b => s.bufB
  | .t => s.bufT
  | .r => s.bufR

/-- Replaces the elements of buffer X. -/
def State.setBuf (s : State) : (x : Buffer) → Memory x.width → State
  | .a, m => { s with bufA := m }
  | .b, m => { s with bufB := m }
  | .t, m => { s with bufT := m }
  | .r, m => { s with bufR := m }

/-- `shape(X)`, the pair held in SHAPE_X (00_scope.md R11). -/
def State.shape (s : State) : Buffer → Shape
  | .a => s.shapeA
  | .b => s.shapeB
  | .t => s.shapeT
  | .r => s.shapeR

/-- `shape(X) <- sh`. -/
def State.setShape (s : State) (x : Buffer) (sh : Shape) : State :=
  match x with
  | .a => { s with shapeA := sh }
  | .b => { s with shapeB := sh }
  | .t => { s with shapeT := sh }
  | .r => { s with shapeR := sh }

/-- `elem(X, i)`, `none` where unwritten (10_state.md R32, R36). -/
def State.elem (s : State) (x : Buffer) (i : Nat) : Option (BitVec x.width) :=
  Memory.read (s.buf x) i

/-- `elem(X, i) <- v` (00_scope.md R11). -/
def State.setElem (s : State) (x : Buffer) (i : Nat) (v : BitVec x.width) : State :=
  s.setBuf x (Memory.write (s.buf x) i v)

/-- Writes a sequence to the elements of X from index `i` on. -/
def State.writeElems (s : State) (x : Buffer) (i : Nat) (vs : List (BitVec x.width)) : State :=
  s.setBuf x (Memory.writeFrom (s.buf x) i vs)

/-- `GMR.P <- p` (10_state.md R25). -/
def State.setGmr (s : State) (p : Byte) : State := { s with gmr := p }

/-- A shape from row and column counts; the spec's counts fit their 12 bits (42_repack.md R133, R134, R135, R137). -/
def Shape.ofCounts (r c : Nat) : Shape := ⟨BitVec.ofNat 12 r, BitVec.ofNat 12 c⟩

/-- r·c, the number of elements the shape holds (10_state.md R30). -/
def Shape.count (sh : Shape) : Nat := sh.rows.toNat * sh.cols.toNat

/-- The reset input (70_reset_and_hazards.md R190, R191): every register and buffer as after reset. The configuration is not
affected (10_state.md R26); the host's list of accesses and its record of reads are not the block's state. -/
def State.resetBlock (s : State) : State :=
  { State.resetWith s.cfg with pending := s.pending, observed := s.observed }

end Sys2Proof.Machine
end

