-- ==== Sys2Proof/Machine/Flags.lean ====
section
/-! DEFINITION. STATUS, GFCORE's only flags (10_state.md R24, R33): how a command ends, and the host's view of the register.
GFCORE has no trap: recording an error here is all that an error does (60_exceptions.md R172, R177). -/

namespace Sys2Proof.Machine

/-- The command errors (60_exceptions.md R170). -/
inductive CommandError where
  | shapeMismatch
  | alignment
  | shapeInvalid
  | illegalCommand
  deriving DecidableEq, Repr

/-- The ECODE of an error (60_exceptions.md R170). -/
def CommandError.code : CommandError → BitVec 3
  | .shapeMismatch => 1
  | .alignment => 2
  | .shapeInvalid => 3
  | .illegalCommand => 4

/-- `fail(code)`: `STATUS.ECODE <- code; STATUS.ERR <- 1` and nothing else (60_exceptions.md R172). -/
def State.fail (s : State) (e : CommandError) : State := { s with ecode := e.code, err := true }

/-- `succeed()`: `STATUS.ECODE <- 0` (00_scope.md R11). ERR is sticky and stays. -/
def State.succeed (s : State) : State := { s with ecode := 0 }

/-- A read of STATUS: `zext_32(ERR) << 8 OR zext_32(ECODE)` (20_memory.md R53). -/
def State.statusWord (s : State) : Word :=
  (BitVec.ofBool s.err).setWidth 32 <<< 8 ||| s.ecode.setWidth 32

/-- A host write of STATUS: bit 8 is write-1-to-clear for ERR, and nothing else is written (10_state.md R24). -/
def State.writeStatus (s : State) (v : Word) : State :=
  if v.getLsbD 8 then { s with err := false } else s

end Sys2Proof.Machine
end

