-- ==== Sys2Proof/Machine/Field.lean ====
section
/-! DEFINITION. Field arithmetic (40_field_arith.md): the GF(2^8) multiply, the two other readings of its loop that the spec
shows equal, and the command GMUL. -/

namespace Sys2Proof.Machine

/-- 0x1B, the low byte of the reduction polynomial 0x11B (00_scope.md R7). -/
def reductionLow : Byte := 0x1B

/-- Doubling in the field: shift left by 1, and fold with 0x1B when the bit shifted out was 1 (R101). -/
def xtime (x : Byte) : Byte :=
  if x.getLsbD 7 then (x <<< 1) ^^^ reductionLow else x <<< 1

/-- `n` iterations of R101's loop, from the values p, x and y. -/
def gmulLoop : Nat → Byte → Byte → Byte → Byte
  | 0, p, _, _ => p
  | n + 1, p, x, y => gmulLoop n (if y.getLsbD 0 then p ^^^ x else p) (xtime x) (y >>> 1)

/-- `gmul(a, b)`: the field product, by a fixed count of 8 iterations (R101, R102). -/
def gmul (a b : Byte) : Byte := gmulLoop 8 0 a b

/-- The reading "Repeat until `b` is exhausted (zero)" (R102), cut off after `fuel` iterations. -/
def gmulUntilZero : Nat → Byte → Byte → Byte → Byte
  | 0, p, _, _ => p
  | fuel + 1, p, x, y =>
    if y = 0 then p
    else gmulUntilZero fuel (if y.getLsbD 0 then p ^^^ x else p) (xtime x) (y >>> 1)

/-- The reading that leaves the doubled operand unmasked (R103): p and x are unbounded naturals. -/
def gmulUnmaskedLoop : Nat → Nat → Nat → Byte → Nat
  | 0, p, _, _ => p
  | n + 1, p, x, y =>
    gmulUnmaskedLoop n (if y.getLsbD 0 then p ^^^ x else p)
      (if x.testBit 7 then (x <<< 1) ^^^ reductionLow.toNat else x <<< 1) (y >>> 1)

/-- The unmasked reading masks only the final p (R103). -/
def gmulUnmasked (a b : Byte) : Byte := BitVec.ofNat 8 (gmulUnmaskedLoop 8 0 a.toNat b)

/-- GMUL (R100): `GMR.P <- gmul(a, b)` and success, for every operand. -/
def execGmul (a b : Byte) (s : State) : Host.Outcome State Fault Refusal :=
  .next (s.setGmr (gmul a b)).succeed

end Sys2Proof.Machine
end

