-- ==== Sys2Proof/Machine/Operands.lean ====
section
/-! DEFINITION. What a command does with its operands before it computes: the validity and conformance of shapes, and reading
the elements in use, where an unwritten one is a fault. -/

namespace Sys2Proof.Machine

/-- `valid_n(r, c) := r <= n AND c <= n AND r·c <= n` (10_state.md R28). -/
def Shape.valid (n : Nat) (sh : Shape) : Bool :=
  decide (sh.rows.toNat ≤ n) && decide (sh.cols.toNat ≤ n) && decide (sh.count ≤ n)

/-- The shape of X is valid for X's own capacity (10_state.md R28). -/
def State.shapeValid (s : State) (x : Buffer) : Bool := (s.shape x).valid (x.capacity s.cfg)

/-- `conform(A, B) := ra = rb AND (ra = 0 OR ca = cb)` (43_matrix.md R151). -/
def conform (a b : Shape) : Bool :=
  decide (a.rows = b.rows) && (decide (a.rows = 0) || decide (a.cols = b.cols))

/-- The number of elements of X in use: r·c (10_state.md R30). -/
def State.inUse (s : State) (x : Buffer) : Nat := (s.shape x).count

/-- A command's read of one element; an unwritten one is a fault (10_state.md R32). -/
def readElem (s : State) (x : Buffer) (i : Nat) : Except Fault (BitVec x.width) :=
  match s.elem x i with
  | some v => .ok v
  | none => .error (.unwrittenElement x i)

/-- Reads `get i, …, get (i + n − 1)` in order, and stops at the first fault. -/
def collect {α : Type} (get : Nat → Except Fault α) : Nat → Nat → Except Fault (List α)
  | _, 0 => .ok []
  | i, n + 1 =>
    match get i with
    | .error f => .error f
    | .ok v =>
      match collect get (i + 1) n with
      | .error f => .error f
      | .ok vs => .ok (v :: vs)

/-- `[elem(X, i), …, elem(X, i + n − 1)]`. -/
def readElems (s : State) (x : Buffer) (i n : Nat) : Except Fault (List (BitVec x.width)) :=
  collect (readElem s x) i n

/-- Ends a command once its operands are read: the next state computed from them, or the fault of the reading. -/
def onOperands {α : Type} (operands : Except Fault α) (result : α → State) : Host.Outcome State Fault Refusal :=
  match operands with
  | .error f => .fault f
  | .ok x => .next (result x)

end Sys2Proof.Machine
end

