-- ==== Sys2Proof/Machine/Matrix.lean ====
section
/-! DEFINITION. Rectangular byte-matrix XOR and sum (43_matrix.md): the commands MXOR and MSUM. -/

namespace Sys2Proof.Machine

/-- One lane: reads elem(A, k), then elem(B, k), and combines them. No lane reads another (R155). -/
def readLane (lane : Byte → Byte → Sum) (s : State) (k : Nat) : Except Fault Sum :=
  match readElem s .a k with
  | .error f => .error f
  | .ok a =>
    match readElem s .b k with
    | .error f => .error f
    | .ok b => .ok (lane a b)

/-- The body MXOR and MSUM share (R150, R153): both shapes valid, then conformance, then every lane into R with A's shape
(R152). -/
def matrixCommand (lane : Byte → Byte → Sum) (s : State) : Host.Outcome State Fault Refusal :=
  if s.shapeValid .a && s.shapeValid .b then
    if conform s.shapeA s.shapeB then
      onOperands (collect (readLane lane s) 0 (s.inUse .a)) fun y =>
        ((s.writeElems .r 0 y).setShape .r s.shapeA).succeed
    else .next (s.fail .shapeMismatch)
  else .next (s.fail .shapeInvalid)

/-- `zext_9(a XOR b)` (R150). -/
def xorLane (a b : Byte) : Sum := (a ^^^ b).setWidth 9

/-- `zext_9(a) + zext_9(b)`, exact: 0 to 510 (R153, R154). -/
def sumLane (a b : Byte) : Sum := a.setWidth 9 + b.setWidth 9

/-- MXOR (R150). -/
def execMxor (s : State) : Host.Outcome State Fault Refusal := matrixCommand xorLane s

/-- MSUM (R153). -/
def execMsum (s : State) : Host.Outcome State Fault Refusal := matrixCommand sumLane s

end Sys2Proof.Machine
end

