-- ==== Sys2Proof/Machine/Repack.lean ====
section
/-! DEFINITION. Byte/bit repacking and flatten (42_repack.md): the source's two functions and the commands B2BITS, BITS2B,
MBITS and FLAT. -/

namespace Sys2Proof.Machine

/-- `bits8(v)`: the bits of a byte, most significant first (00_scope.md R13). -/
def bits8 (v : Byte) : List Bit :=
  [v.extractLsb' 7 1, v.extractLsb' 6 1, v.extractLsb' 5 1, v.extractLsb' 4 1,
   v.extractLsb' 3 1, v.extractLsb' 2 1, v.extractLsb' 1 1, v.extractLsb' 0 1]

/-- `byte8([b0, …, b7]) = Σ b_k · 2^(7−k)` (00_scope.md R13). -/
def byte8 (b0 b1 b2 b3 b4 b5 b6 b7 : Bit) : Byte :=
  BitVec.ofNat 8 (b0.toNat * 128 + b1.toNat * 64 + b2.toNat * 32 + b3.toNat * 16
    + b4.toNat * 8 + b5.toNat * 4 + b6.toNat * 2 + b7.toNat)

/-- `bytes_to_bits` (R130). -/
def bytesToBits : List Byte → List Bit
  | [] => []
  | v :: x => bits8 v ++ bytesToBits x

/-- The bytes of the consecutive groups of 8 bits; a rest of fewer than 8 gives none. -/
def packGroups : List Bit → List Byte
  | b0 :: b1 :: b2 :: b3 :: b4 :: b5 :: b6 :: b7 :: t => byte8 b0 b1 b2 b3 b4 b5 b6 b7 :: packGroups t
  | _ => []

/-- `bits_to_bytes` (R131): `none` is the alignment error. -/
def bitsToBytes (t : List Bit) : Option (List Byte) :=
  if t.length % 8 = 0 then some (packGroups t) else none

/-- B2BITS (R133): flat(A) to bits, into T as one row. -/
def execB2bits (s : State) : Host.Outcome State Fault Refusal :=
  if s.shapeValid .a then
    onOperands (readElems s .a 0 (s.inUse .a)) fun x =>
      ((s.writeElems .t 0 (bytesToBits x)).setShape .t (Shape.ofCounts 1 (8 * s.inUse .a))).succeed
  else .next (s.fail .shapeInvalid)

/-- BITS2B (R134): flat(T) to bytes, into R as one row. The count is checked before any element is read (60_exceptions.md
R173). -/
def execBits2b (s : State) : Host.Outcome State Fault Refusal :=
  if s.shapeValid .t then
    if s.inUse .t % 8 = 0 then
      onOperands (readElems s .t 0 (s.inUse .t)) fun t =>
        ((s.writeElems .r 0 ((packGroups t).map fun y => y.setWidth 9)).setShape .r
          (Shape.ofCounts 1 (s.inUse .t / 8))).succeed
    else .next (s.fail .alignment)
  else .next (s.fail .shapeInvalid)

/-- Row `i` of an operand matrix with `c` columns: elements i·c to i·c + c − 1 (00_scope.md R12). -/
def readRow (s : State) (x : Buffer) (c i : Nat) : Except Fault (List (BitVec x.width)) :=
  readElems s x (i * c) c

/-- Writes the bits of each byte row to T, row `i` from element i·(8·c) on (R135). -/
def writeBitRows (c : Nat) (s : State) : Nat → List (List Byte) → State
  | _, [] => s
  | i, row :: rows => writeBitRows c (s.writeElems .t (i * (8 * c)) (bytesToBits row)) (i + 1) rows

/-- MBITS (R135): A to bits row by row, into T with the same row count and rows eight times as wide. -/
def execMbits (s : State) : Host.Outcome State Fault Refusal :=
  if s.shapeValid .a then
    onOperands (collect (readRow s .a s.shapeA.cols.toNat) 0 s.shapeA.rows.toNat) fun rows =>
      ((writeBitRows s.shapeA.cols.toNat s 0 rows).setShape .t
        (Shape.ofCounts s.shapeA.rows.toNat (8 * s.shapeA.cols.toNat))).succeed
  else .next (s.fail .shapeInvalid)

/-- FLAT X (R137): shape(X) to one row; no element is read or written. -/
def execFlat (x : Buffer) (s : State) : Host.Outcome State Fault Refusal :=
  if s.shapeValid x then .next (s.setShape x (Shape.ofCounts 1 (s.inUse x))).succeed
  else .next (s.fail .shapeInvalid)

end Sys2Proof.Machine
end

