-- ==== Sys2Proof/Machine/Dispatch.lean ====
section
/-! DEFINITION. The dispatch of a decoded command (30_encoding.md R83, R84). -/

namespace Sys2Proof.Machine

-- One arm per row of the opcode map, each a direct call of that command's meaning.
def exec (i : Instr) (s : State) : Host.Outcome State Fault Refusal :=
  match i with
  | .gmul a b => Sys2Proof.Machine.execGmul a b s
  | .b2bits => Sys2Proof.Machine.execB2bits s
  | .bits2b => Sys2Proof.Machine.execBits2b s
  | .mbits => Sys2Proof.Machine.execMbits s
  | .flat x => Sys2Proof.Machine.execFlat x s
  | .mxor => Sys2Proof.Machine.execMxor s
  | .msum => Sys2Proof.Machine.execMsum s

end Sys2Proof.Machine
end

