-- ==== Sys2Proof/Machine/Bus.lean ====
section
/-! DEFINITION. The host's interface (20_memory.md): the address map, the two access primitives, and performing one host event.
A write to CMD runs its whole command inside the access (R58, 70_reset_and_hazards.md R195). -/

namespace Sys2Proof.Machine

/-- What an offset of the window names (R51). -/
inductive Target where
  | cmd
  | status
  | gmr
  | caps
  | shape (x : Buffer)
  | elem (x : Buffer) (i : Nat)
  deriving DecidableEq, Repr

/-- WIN(X), the offset of X's element 0 (R52). -/
def windowOffset : Buffer → Nat
  | .a => 0x0400
  | .b => 0x0800
  | .r => 0x0C00
  | .t => 0x2000

/-- The first offset past X's element range (R51). -/
def windowEnd : Buffer → Nat
  | .a => 0x0800
  | .b => 0x0C00
  | .r => 0x1000
  | .t => 0x4000

/-- The offset of SHAPE_X (10_state.md R22). -/
def shapeOffset : Buffer → Nat
  | .a => 0x010
  | .b => 0x014
  | .t => 0x018
  | .r => 0x01C

/-- The offset a register name or `X[i]` stands for (10_state.md R22, R52). For an `i` at or above X's element count the spec gives
no offset, and the formula is the model's choice (log entry 17). -/
def Target.offset : Target → Nat
  | .cmd => 0x000
  | .status => 0x004
  | .gmr => 0x008
  | .caps => 0x00C
  | .shape x => shapeOffset x
  | .elem x i => windowOffset x + 4 * i

/-- The register at an offset (10_state.md R22). -/
def registerAt (off : Nat) : Option Target :=
  if off = 0x000 then some .cmd
  else if off = 0x004 then some .status
  else if off = 0x008 then some .gmr
  else if off = 0x00C then some .caps
  else if off = 0x010 then some (.shape .a)
  else if off = 0x014 then some (.shape .b)
  else if off = 0x018 then some (.shape .t)
  else if off = 0x01C then some (.shape .r)
  else none

/-- The element of X at an offset: an element offset of X's range whose index is below X's element count (R51). -/
def elementOf (c : Config) (x : Buffer) (off : Nat) : Option Target :=
  if windowOffset x ≤ off ∧ off < windowEnd x ∧ off % 4 = 0 ∧ (off - windowOffset x) / 4 < x.capacity c then
    some (.elem x ((off - windowOffset x) / 4))
  else none

/-- The address map (R51): a register, a mapped element, or nothing. -/
def decodeOffset (c : Config) (off : Nat) : Option Target :=
  match registerAt off with
  | some t => some t
  | none => [Buffer.a, .b, .r, .t].findSome? (fun x => elementOf c x off)

/-- What an access of `n` bytes at `addr` reaches; `none` where `admitted(addr, n)` fails (R55): a width other than 4, a
misaligned address, an address below BASE, or an offset that maps to nothing. -/
def admitted (c : Config) (addr n : Nat) : Option Target :=
  if n = 4 ∧ addr % 4 = 0 ∧ c.base ≤ addr then decodeOffset c (addr - c.base) else none

/-- A shape register's word: `zext_32(ROWS) << 16 OR zext_32(COLS)` (10_state.md R27). -/
def Shape.word (sh : Shape) : Word := sh.rows.setWidth 32 <<< 16 ||| sh.cols.setWidth 32

/-- `ROWS <- v[27:16]; COLS <- v[11:0]`, unchecked (10_state.md R27). -/
def Shape.ofWord (v : Word) : Shape := ⟨v.extractLsb' 16 12, v.extractLsb' 0 12⟩

/-- A read of CAPS: CAP in bits 15:0 (10_state.md R26). -/
def capsWord (c : Config) : Word := (BitVec.ofNat 16 c.cap).setWidth 32

/-- The value a read of a target returns; it changes nothing (R53). -/
def readTarget (s : State) : Target → Except Fault Word
  | .cmd => .ok 0
  | .status => .ok s.statusWord
  | .gmr => .ok (s.gmr.setWidth 32)
  | .caps => .ok (capsWord s.cfg)
  | .shape x => .ok (s.shape x).word
  | .elem x i =>
    match readElem s x i with
    | .error f => .error f
    | .ok v => .ok (v.setWidth 32)

/-- `MemRead(addr, n)` (R53): an access that is not admitted is a BusError (R57). -/
def memRead (s : State) (addr n : Nat) : Except Fault Word :=
  match admitted s.cfg addr n with
  | none => .error (.busError addr)
  | some t => readTarget s t

/-- `execute(w)` (30_encoding.md R83): the selected command, or ILLEGAL_COMMAND. -/
def execute (w : Word) (s : State) : Host.Outcome State Fault Refusal :=
  match decode w with
  | .error _ => .next (s.fail .illegalCommand)
  | .ok i => exec i s

/-- What a write of `v` to a target does (R54). An element keeps its width of low bits. -/
def writeTarget (s : State) (v : Word) : Target → Host.Outcome State Fault Refusal
  | .cmd => execute v s
  | .status => .next (s.writeStatus v)
  | .gmr => .next s
  | .caps => .next s
  | .shape x => .next (s.setShape x (Shape.ofWord v))
  | .elem x i => .next (s.setElem x i (v.setWidth x.width))

/-- `MemWrite(addr, n, v)` (R54): an access that is not admitted is a BusError (R57). -/
def memWrite (s : State) (addr n : Nat) (v : Word) : Host.Outcome State Fault Refusal :=
  match admitted s.cfg addr n with
  | none => .fault (.busError addr)
  | some t => writeTarget s v t

/-- Records the value a host read returned (30_encoding.md R92). -/
def State.observe (s : State) (v : Word) : State := { s with observed := s.observed ++ [v] }

/-- Performs one host event whole: one step of the untimed machine (R58, R62, 70_reset_and_hazards.md R197). -/
def perform (e : HostEvent) (s : State) : Host.Outcome State Fault Refusal :=
  match e with
  | .read addr n =>
    match memRead s addr n with
    | .error f => .fault f
    | .ok v => .next (s.observe v)
  | .write addr n v => memWrite s addr n v
  | .reset => .next s.resetBlock

/-- A run (30_encoding.md R92): the events performed in order, stopping at the first fault. -/
def performAll : List HostEvent → State → Host.Outcome State Fault Refusal
  | [], s => .next s
  | e :: es, s =>
    match perform e s with
    | .next t => performAll es t
    | .fault f => .fault f
    | .refused r => .refused r

/-- The host access that issues the command word `w`: `wr CMD, w` (30_encoding.md R87, R88). -/
def commandWrite (c : Config) (w : Word) : HostEvent := .write (c.base + Target.offset .cmd) 4 w

end Sys2Proof.Machine
end

