-- ==== Sys2Proof/Machine/Step.lean ====
section
/-! DEFINITION. One step of the machine: GFCORE performs the host's next access (20_memory.md R62). -/

namespace Sys2Proof.Machine

/-- One step: the first pending event is taken off the list and performed. With none pending GFCORE waits, and its state does
not change while it waits (70_reset_and_hazards.md R197). -/
def step (s : State) : Host.Outcome State Fault Refusal :=
  match s.pending with
  | [] => .next s
  | e :: es => perform e { s with pending := es }

/-- The next event is the host's write to CMD of the word `w` (its low `nbits` bits), before any already pending: the one way
to issue a command (30_encoding.md R80). -/
def State.withFetchWord (s : State) (nbits w : Nat) : State :=
  { s with pending := commandWrite s.cfg (BitVec.ofNat 32 (w % 2 ^ nbits)) :: s.pending }

end Sys2Proof.Machine
end

