-- ==== Sys2Proof/Machine/Codec.lean ====
section
/-! DEFINITION. The host-side text codecs (41_host_codec.md): HEX2B and B2HEX. They are host software without an opcode (R90)
and touch no state of GFCORE; a string is its list of characters. -/

namespace Sys2Proof.Machine

/-- The host-side failure of a codec. Safe: the codec gives no value where the source defines none (R113, R115). -/
inductive CodecError where
  | codecError
  deriving DecidableEq, Repr

/-- `hexval` of a hex digit of either case; `none` for any other character (R111). -/
def hexval (ch : Char) : Option Nat :=
  if 48 ≤ ch.toNat ∧ ch.toNat ≤ 57 then some (ch.toNat - 48)
  else if 97 ≤ ch.toNat ∧ ch.toNat ≤ 102 then some (ch.toNat - 87)
  else if 65 ≤ ch.toNat ∧ ch.toNat ≤ 70 then some (ch.toNat - 55)
  else none

/-- Removes one leading "0x", lower case only (R112). -/
def stripHexMark : List Char → List Char
  | '0' :: 'x' :: s => s
  | s => s

/-- The values of all characters as hex digits; `none` if one is no hex digit. -/
def hexDigits : List Char → Option (List Nat)
  | [] => some []
  | ch :: s =>
    match hexval ch with
    | none => none
    | some d =>
      match hexDigits s with
      | none => none
      | some ds => some (d :: ds)

/-- Consecutive pairs of digits as bytes: `hexval(s[2k])·16 + hexval(s[2k+1])` (R110). -/
def digitPairs : List Nat → List Byte
  | hi :: lo :: ds => BitVec.ofNat 8 (hi * 16 + lo) :: digitPairs ds
  | _ => []

/-- HEX2B, the source's `str_to_int_array` (R110): an odd count of digits is padded with one 0 on the left. -/
def hex2b (s : List Char) : Except CodecError (List Byte) :=
  match hexDigits (stripHexMark s) with
  | none => .error .codecError
  | some ds => .ok (digitPairs (if ds.length % 2 = 1 then 0 :: ds else ds))

/-- The lower-case hex digit of a value below 16. -/
def lowerDigit (d : Nat) : Char := if d < 10 then Char.ofNat (48 + d) else Char.ofNat (87 + d)

/-- The upper-case hex digit of a value below 16. -/
def upperDigit (d : Nat) : Char := if d < 10 then Char.ofNat (48 + d) else Char.ofNat (55 + d)

/-- `tok(v)`: "0x" and exactly two lower-case hex digits (R114). -/
def hexToken (v : Nat) : List Char := ['0', 'x', lowerDigit (v / 16), lowerDigit (v % 16)]

/-- The tokens joined with ", " (R114). -/
def joinTokens : List Nat → List Char
  | [] => []
  | [v] => hexToken v
  | v :: x => hexToken v ++ [',', ' '] ++ joinTokens x

/-- B2HEX, the source's `int_to_hex` (R114): a value above 255 has no rendering (R115). -/
def b2hex (x : List Nat) : Except CodecError (List Char) :=
  if x.all (fun v => decide (v ≤ 255)) then .ok (['['] ++ joinTokens x ++ [']']) else .error .codecError

/-- `canon(x)` (R117): the two-digit hex form of each byte in order. The case of its digits is not fixed, so it takes the
digit to write for each nibble. -/
def canonHex (digit : Nat → Char) : List Byte → List Char
  | [] => []
  | v :: x => digit (v.toNat / 16) :: digit (v.toNat % 16) :: canonHex digit x

end Sys2Proof.Machine
end

