-- ==== Sys2Proof/Machine/Program.lean ====
section
/-! DEFINITION. Host programs (30_encoding.md R87 to R89): the host's two accesses by name, the command mnemonics, the
pseudo-instructions, and the accesses each stands for. -/

namespace Sys2Proof.Machine

/-- One line of a host program. -/
inductive HostLine where
  /-- `wr OFF, V` (R88) -/
  | wr (loc : Target) (v : Word)
  /-- `rd OFF` (R88) -/
  | rd (loc : Target)
  /-- a command mnemonic (R87) -/
  | command (i : Instr)
  /-- `SHAPE X, r, c` (R89) -/
  | shape (x : Buffer) (r c : Nat)
  /-- `LOAD X, [v0, …]` (R89) -/
  | load (x : Buffer) (vs : List Word)
  /-- `LOADM X, [[row0], …]` (R89) -/
  | loadm (x : Buffer) (rows : List (List Word))
  /-- `READ X, n` (R89) -/
  | read (x : Buffer) (n : Nat)
  /-- `CLRERR` (R89) -/
  | clrerr
  deriving DecidableEq, Repr

/-- `MemWrite(BASE + OFF, 4, V)` (R88). -/
def writeLoc (c : Config) (loc : Target) (v : Word) : HostEvent := .write (c.base + loc.offset) 4 v

/-- `MemRead(BASE + OFF, 4)` (R88). -/
def readLoc (c : Config) (loc : Target) : HostEvent := .read (c.base + loc.offset) 4

/-- `wr SHAPE_X, (r << 16) OR c` (R89). -/
def writeShape (c : Config) (x : Buffer) (rows cols : Nat) : HostEvent :=
  writeLoc c (.shape x) (BitVec.ofNat 32 (rows <<< 16 ||| cols))

/-- `wr X[i], v0 ; wr X[i + 1], v1 ; …`. -/
def writeElemsFrom (c : Config) (x : Buffer) : Nat → List Word → List HostEvent
  | _, [] => []
  | i, v :: vs => writeLoc c (.elem x i) v :: writeElemsFrom c x (i + 1) vs

/-- `rd X[i] ; … ; rd X[i + n − 1]`. -/
def readElemsFrom (c : Config) (x : Buffer) : Nat → Nat → List HostEvent
  | _, 0 => []
  | i, n + 1 => readLoc c (.elem x i) :: readElemsFrom c x (i + 1) n

/-- The number of values in each row of a matrix literal. -/
def rowLength (rows : List (List Word)) : Nat :=
  match rows with
  | [] => 0
  | row :: _ => row.length

/-- A line the assembler accepts (R87 to R89): SHAPE's counts fit the 12-bit fields of a shape register, and a LOADM literal
has at least one row, rows of one length, and counts that fit (log entry 14, DEDUCED). DESIGN CHOICE (log entry 17, unsafe for a
claim about such a line): an index `i` of `X[i]` is not checked against X's element count, and neither is how far LOAD, LOADM and
READ reach; past it the line is accepted and expands by the formula of R52. -/
def HostLine.wellFormed : HostLine → Bool
  | .wr _ _ => true
  | .rd _ => true
  | .command i => i.wellFormed
  | .shape _ r c => decide (r < 4096) && decide (c < 4096)
  | .load _ _ => true
  | .loadm _ rows =>
    !rows.isEmpty && rows.all (fun row => row.length == rowLength rows)
      && decide (rows.length < 4096) && decide (rowLength rows < 4096)
  | .read _ _ => true
  | .clrerr => true

/-- The accesses a line stands for (R87 to R89). An element past its buffer's element count goes to BASE + WIN(X) + 4·i like any
other, so `A[256]` reaches B's element 0 (DESIGN CHOICE, log entry 17). -/
def HostLine.expand (c : Config) : HostLine → List HostEvent
  | .wr loc v => [writeLoc c loc v]
  | .rd loc => [readLoc c loc]
  | .command i => [commandWrite c (encode i)]
  | .shape x rows cols => [writeShape c x rows cols]
  | .load x vs => writeElemsFrom c x 0 vs
  | .loadm x rows => writeShape c x rows.length (rowLength rows) :: writeElemsFrom c x 0 rows.flatten
  | .read x n => readElemsFrom c x 0 n
  | .clrerr => [writeLoc c .status 0x100]

/-- The accesses of a host program, in its order (R88). -/
def expandProgram (c : Config) : List HostLine → List HostEvent
  | [] => []
  | l :: ls => l.expand c ++ expandProgram c ls

end Sys2Proof.Machine
end

