-- ==== Sys2Proof/Safety.lean ====
section
/-! DEFINITION. The terms in which claims are stated: the machine's invariant, when a command's operands are written, and what
counts as a safe run. -/

namespace Sys2Proof.Machine

/-- A buffer in canonical form, with every written element below the element count (10_state.md R30). -/
abbrev State.bufferWf (s : State) (x : Buffer) : Prop :=
  Memory.wf (s.buf x) ∧ Memory.below (x.capacity s.cfg) (s.buf x)

/-- The invariant of GFCORE: a configuration the spec allows, ECODE never a reserved code (93_implementation_defined.md U9), and
every buffer in canonical form within its element count. -/
structure State.Inv (s : State) : Prop where
  config : s.cfg.wellFormed = true
  ecode : s.ecode.toNat ≤ 4
  bufA : s.bufferWf .a
  bufB : s.bufferWf .b
  bufT : s.bufferWf .t
  bufR : s.bufferWf .r

/-- Every element of X in use has been written since reset (70_reset_and_hazards.md R194 step 2). -/
abbrev State.operandsWritten (s : State) (x : Buffer) : Prop :=
  ∀ k < s.inUse x, (s.elem x k).isSome = true

end Sys2Proof.Machine

namespace Sys2Proof

/-- The buffers whose elements a command reads (10_state.md R30). -/
def Instr.reads : Instr → List Buffer
  | .gmul _ _ => []
  | .b2bits => [.a]
  | .bits2b => [.t]
  | .mbits => [.a]
  | .flat _ => []
  | .mxor => [.a, .b]
  | .msum => [.a, .b]

/-- The buffer whose elements a command writes (10_state.md R30). -/
def Instr.writes : Instr → Option Buffer
  | .gmul _ _ => none
  | .b2bits => some .t
  | .bits2b => some .r
  | .mbits => some .t
  | .flat _ => none
  | .mxor => some .r
  | .msum => some .r

/-- The buffers whose shape a command checks (60_exceptions.md R170). -/
def Instr.checks : Instr → List Buffer
  | .gmul _ _ => []
  | .b2bits => [.a]
  | .bits2b => [.t]
  | .mbits => [.a]
  | .flat x => [x]
  | .mxor => [.a, .b]
  | .msum => [.a, .b]

end Sys2Proof

namespace Sys2Proof.Machine

/-- The error a command's shapes give it, in the order of 60_exceptions.md R173; `none` when it passes every check. -/
def shapeError (i : Instr) (s : State) : Option CommandError :=
  if i.checks.all s.shapeValid then
    match i with
    | .gmul _ _ => none
    | .b2bits => none
    | .bits2b => if s.inUse .t % 8 = 0 then none else some .alignment
    | .mbits => none
    | .flat _ => none
    | .mxor => if conform s.shapeA s.shapeB then none else some .shapeMismatch
    | .msum => if conform s.shapeA s.shapeB then none else some .shapeMismatch
  else some .shapeInvalid

/-- The element a host read asks for is written; every other admitted target can always be read (R53). -/
def Target.readable (s : State) : Target → Bool
  | .cmd => true
  | .status => true
  | .gmr => true
  | .caps => true
  | .shape _ => true
  | .elem x i => (s.elem x i).isSome

/-- `admitted(addr, n)` in the words of R55 and R51, apart from the decoder: the width is 4, the address is aligned, and the
offset is one of the eight register offsets or the offset of a mapped element. -/
def AdmittedAccess (c : Config) (addr n : Nat) : Prop :=
  n = 4 ∧ addr % 4 = 0 ∧ ∃ off, addr = c.base + off ∧
    (off ∈ [0x000, 0x004, 0x008, 0x00C, 0x010, 0x014, 0x018, 0x01C] ∨
      (∃ i < c.cap, off = 0x0400 + 4 * i) ∨ (∃ i < c.cap, off = 0x0800 + 4 * i) ∨
      (∃ i < c.cap, off = 0x0C00 + 4 * i) ∨ (∃ i < 8 * c.cap, off = 0x2000 + 4 * i))

/-- The offset of each shape register (10_state.md R22). -/
def shapeOffsets : List (Buffer × Nat) := [(.a, 0x010), (.b, 0x014), (.t, 0x018), (.r, 0x01C)]

/-- WIN(X) for each buffer (R52). -/
def elementWindows : List (Buffer × Nat) := [(.a, 0x0400), (.b, 0x0800), (.r, 0x0C00), (.t, 0x2000)]

/-- `valid_n` of a shape, as 10_state.md R28 writes it. -/
abbrev FitsIn (n : Nat) (sh : Shape) : Prop :=
  sh.rows.toNat ≤ n ∧ sh.cols.toNat ≤ n ∧ sh.rows.toNat * sh.cols.toNat ≤ n

/-- `valid_n(r, c)` of two counts not yet in a shape register (10_state.md R28). -/
abbrev FitsCounts (n r c : Nat) : Prop := r ≤ n ∧ c ≤ n ∧ r * c ≤ n

/-- `conform(A, B)`, as 43_matrix.md R151 writes it. -/
abbrev Conforms (a b : Shape) : Prop := a.rows = b.rows ∧ (a.rows = 0 ∨ a.cols = b.cols)

/-- The state after a failing command: the state before it, except STATUS (60_exceptions.md R172). -/
def State.failedWith (s : State) (code : BitVec 3) : State := { s with ecode := code, err := true }

/-- The same state under other values of the two open parameters that no rule depends on (R56, 93_implementation_defined.md
U15, U16). -/
def State.withPlatform (s : State) (e : BusEndian) (b : BusErrorAction) : State :=
  { s with cfg := { s.cfg with busEndian := e, busErrorAction := b } }

/-- An outcome with its next state changed. -/
def mapNext (f : State → State) : Host.Outcome State Fault Refusal → Host.Outcome State Fault Refusal
  | .next s => .next (f s)
  | .fault r => .fault r
  | .refused r => .refused r

/-- A host event whose address is an offset, placed in a window at `base`. -/
def HostEvent.atBase (base : Nat) : HostEvent → HostEvent
  | .read off n => .read (base + off) n
  | .write off n v => .write (base + off) n v
  | .reset => .reset

/-- A state whose window sits at `base`, with the accesses `es`, given by offset, pending. -/
def State.placedAt (s : State) (base : Nat) (es : List HostEvent) : State :=
  { s with cfg := { s.cfg with base := base }, pending := es.map (HostEvent.atBase base) }

/-- A state with the operand buffers A and B, shapes and contents, exchanged. -/
def State.swapOperands (s : State) : State :=
  { s with shapeA := s.shapeB, shapeB := s.shapeA, bufA := s.bufB, bufB := s.bufA }

/-- A step that does not stop. -/
def StepSafe (s : State) : Prop := ∃ t, step s = .next t

/-- A safe run: the machine performs every pending access without a fault. -/
def RunSafe (s : State) : Prop := ∃ t, Host.Core.run Sys2Proof.core s.pending.length s = .next t

end Sys2Proof.Machine
end

