-- ==== Sys2Proof/Certificates/Slice0/Obligations.lean ====
section
/-! DEFINITION. What is claimed of GFCORE, one proposition each; none is proved here. -/

open Sys2Proof Sys2Proof.Machine

/-! ## The command word -/

/-- 30_encoding.md section 3 (R87) and 95_test_vectors.md: words written out from the spec, and words it calls illegal. -/
def Obligations.WrittenOutWordsDecode : Prop :=
  decode 0x01005783 = .ok (.gmul 0x57 0x83) ∧
  decode 0x02000000 = .ok .b2bits ∧
  decode 0x03000000 = .ok .bits2b ∧
  decode 0x04000000 = .ok .mbits ∧
  decode 0x05000000 = .ok (.flat .a) ∧
  decode 0x05010000 = .ok (.flat .b) ∧
  decode 0x05020000 = .ok (.flat .t) ∧
  decode 0x05030000 = .ok (.flat .r) ∧
  decode 0x06000000 = .ok .mxor ∧
  decode 0x07000000 = .ok .msum ∧
  decode 0x00000000 = .error (.opcodeNotInMap 0x00) ∧
  decode 0x08000000 = .error (.opcodeNotInMap 0x08) ∧
  decode 0x01015783 = .error (.reservedBitSet 0x01015783) ∧
  decode 0x05040000 = .error (.reservedBitSet 0x05040000)

/-- R84, R87: decoding the encoding of any command gives the command back, with every operand at every value. -/
def Obligations.EncodedCommandDecodesToItself : Prop :=
  ∀ i : Instr, decode (encode i) = .ok i

/-- R83, R84: a word that selects a command is that command's encoding, so each command has one word and each legal word one
meaning. -/
def Obligations.DecodedWordIsItsEncoding : Prop :=
  ∀ (w : Word) (i : Instr), decode w = .ok i → encode i = w

/-- R84: the opcode map's rows, and that a word selects a command exactly when `(w AND mask) = match` for that command's row,
with the operand fields of R82. -/
def Obligations.WordSelectsCommandByMaskAndMatch : Prop :=
  (opMap.map fun row => (row.opcode.toNat, row.matchWord.toNat, row.mask.toNat, row.rsvd.toNat)) =
    [(0x01, 0x01000000, 0xFFFF0000, 0x00FF0000), (0x02, 0x02000000, 0xFFFFFFFF, 0x00FFFFFF),
     (0x03, 0x03000000, 0xFFFFFFFF, 0x00FFFFFF), (0x04, 0x04000000, 0xFFFFFFFF, 0x00FFFFFF),
     (0x05, 0x05000000, 0xFFFCFFFF, 0x00FCFFFF), (0x06, 0x06000000, 0xFFFFFFFF, 0x00FFFFFF),
     (0x07, 0x07000000, 0xFFFFFFFF, 0x00FFFFFF)] ∧
  ∀ w : Word,
    (∀ a b : Byte, decode w = .ok (.gmul a b) ↔
      w &&& 0xFFFF0000 = 0x01000000 ∧ a.toNat = w.toNat / 256 % 256 ∧ b.toNat = w.toNat % 256) ∧
    (decode w = .ok .b2bits ↔ w &&& 0xFFFFFFFF = 0x02000000) ∧
    (decode w = .ok .bits2b ↔ w &&& 0xFFFFFFFF = 0x03000000) ∧
    (decode w = .ok .mbits ↔ w &&& 0xFFFFFFFF = 0x04000000) ∧
    (∀ x : Buffer, decode w = .ok (.flat x) ↔
      w &&& 0xFFFCFFFF = 0x05000000 ∧ [Buffer.a, .b, .t, .r][w.toNat / 65536 % 4]? = some x) ∧
    (decode w = .ok .mxor ↔ w &&& 0xFFFFFFFF = 0x06000000) ∧
    (decode w = .ok .msum ↔ w &&& 0xFFFFFFFF = 0x07000000)

/-- R83 and R85: `execute` runs the command the opcode and the reserved bits select, and every other word fails with
ILLEGAL_COMMAND and changes nothing but STATUS. -/
def Obligations.EveryWordRunsItsCommandOrIsIllegal : Prop :=
  ∀ (s : State) (w : Word),
    let op := w.toNat / 2 ^ 24
    let low := w &&& 0x00FFFFFF
    (op = 0 ∨ 8 ≤ op → execute w s = .next (s.failedWith 4)) ∧
    (op = 1 → low &&& 0x00FF0000 ≠ 0 → execute w s = .next (s.failedWith 4)) ∧
    (op = 5 → low &&& 0x00FCFFFF ≠ 0 → execute w s = .next (s.failedWith 4)) ∧
    (op = 2 ∨ op = 3 ∨ op = 4 ∨ op = 6 ∨ op = 7 → low ≠ 0 → execute w s = .next (s.failedWith 4)) ∧
    (op = 1 → low &&& 0x00FF0000 = 0 →
      execute w s = exec (.gmul (BitVec.ofNat 8 (w.toNat / 256)) (BitVec.ofNat 8 w.toNat)) s) ∧
    (op = 2 → low = 0 → execute w s = exec .b2bits s) ∧
    (op = 3 → low = 0 → execute w s = exec .bits2b s) ∧
    (op = 4 → low = 0 → execute w s = exec .mbits s) ∧
    (op = 5 → low &&& 0x00FCFFFF = 0 →
      ∀ x, [Buffer.a, .b, .t, .r][w.toNat / 65536 % 4]? = some x → execute w s = exec (.flat x) s) ∧
    (op = 6 → low = 0 → execute w s = exec .mxor s) ∧
    (op = 7 → low = 0 → execute w s = exec .msum s)

/-! ## One step -/

/-- R23, R80, R195: when the host's next access writes the word of a command to CMD, the step is that command's meaning at the
state with the access taken off the list; a word that selects none fails inside the same access. -/
def Obligations.CommandWriteStepRunsDecodedCommand : Prop :=
  ∀ (s : State) (w : Word) (es : List HostEvent), s.cfg.wellFormed = true →
    s.pending = .write s.cfg.base 4 w :: es →
    (∀ i, decode w = .ok i → step s = exec i { s with pending := es }) ∧
    (∀ e, decode w = .error e → step s = .next (State.failedWith { s with pending := es } 4))

/-- R197 and log entry 4 (the model's choice of an idle step): with no access pending, a step changes nothing. -/
def Obligations.IdleStepChangesNothing : Prop :=
  ∀ s : State, s.pending = [] → step s = .next s

/-- R53: what a host read returns, and that it changes no state of the block. The offsets are those of R22 and R52; `pending`
and `observed` are the model's own record of the run (log entry 1). -/
def Obligations.HostReadReturnsTheValueItNames : Prop :=
  ∀ (s : State) (es : List HostEvent) (addr n : Nat), s.cfg.wellFormed = true → s.pending = .read addr n :: es →
    let answers (v : Nat) : Prop :=
      step s = .next { s with pending := es, observed := s.observed ++ [BitVec.ofNat 32 v] }
    (¬ AdmittedAccess s.cfg addr n → step s = .fault (.busError addr)) ∧
    (n = 4 → addr = s.cfg.base + 0x000 → answers 0) ∧
    (n = 4 → addr = s.cfg.base + 0x004 → answers ((if s.err then 256 else 0) + s.ecode.toNat)) ∧
    (n = 4 → addr = s.cfg.base + 0x008 → answers s.gmr.toNat) ∧
    (n = 4 → addr = s.cfg.base + 0x00C → answers s.cfg.cap) ∧
    (∀ p ∈ shapeOffsets, n = 4 → addr = s.cfg.base + p.2 →
      answers ((s.shape p.1).rows.toNat * 65536 + (s.shape p.1).cols.toNat)) ∧
    (∀ p ∈ elementWindows, ∀ i < p.1.capacity s.cfg, n = 4 → addr = s.cfg.base + p.2 + 4 * i →
      (∀ v, s.elem p.1 i = some v → answers v.toNat) ∧
      (s.elem p.1 i = none → step s = .fault (.unwrittenElement p.1 i)))

/-- R54: what a host write stores and what it leaves alone. -/
def Obligations.HostWriteStoresWhatItNames : Prop :=
  ∀ (s : State) (es : List HostEvent) (addr n : Nat) (v : Word), s.cfg.wellFormed = true →
    s.pending = .write addr n v :: es →
    let u : State := { s with pending := es }
    (¬ AdmittedAccess s.cfg addr n → step s = .fault (.busError addr)) ∧
    (n = 4 → addr = s.cfg.base + 0x000 → step s = execute v u) ∧
    (n = 4 → addr = s.cfg.base + 0x004 → step s = .next { u with err := s.err && !v.getLsbD 8 }) ∧
    (n = 4 → addr = s.cfg.base + 0x008 → step s = .next u) ∧
    (n = 4 → addr = s.cfg.base + 0x00C → step s = .next u) ∧
    (∀ p ∈ shapeOffsets, n = 4 → addr = s.cfg.base + p.2 →
      step s = .next (u.setShape p.1 ⟨BitVec.ofNat 12 (v.toNat / 65536), BitVec.ofNat 12 v.toNat⟩)) ∧
    (∀ p ∈ elementWindows, ∀ i < p.1.capacity s.cfg, n = 4 → addr = s.cfg.base + p.2 + 4 * i →
      ∃ t, step s = .next t ∧
        t.elem p.1 i = some (BitVec.ofNat p.1.width v.toNat) ∧
        (∀ y j, (y ≠ p.1 ∨ j ≠ i) → t.elem y j = s.elem y j) ∧
        t = { u with bufA := t.bufA, bufB := t.bufB, bufT := t.bufT, bufR := t.bufR })

/-- R55: an access is a BusError exactly when one of the three conditions of `admitted` fails. -/
def Obligations.BusErrorExactlyWhenNotAdmitted : Prop :=
  ∀ (s : State) (es : List HostEvent) (addr n : Nat) (v : Word), s.cfg.wellFormed = true →
    (s.pending = .read addr n :: es ∨ s.pending = .write addr n v :: es) →
    (step s = .fault (.busError addr) ↔ ¬ AdmittedAccess s.cfg addr n)

/-- R52: element i of buffer X is reached at BASE + WIN(X) + 4·i, and no two elements share a word. -/
def Obligations.EachElementHasItsOwnWord : Prop :=
  ∀ (c : Config), c.wellFormed = true →
    ∀ p ∈ elementWindows, ∀ i < p.1.capacity c,
      admitted c (c.base + p.2 + 4 * i) 4 = some (.elem p.1 i) ∧
      ∀ q ∈ elementWindows, ∀ j < q.1.capacity c,
        c.base + p.2 + 4 * i = c.base + q.2 + 4 * j → p = q ∧ i = j

/-- R27, R54, R62: what one access writes the next one reads, cut to the element's width or to the shape register's
fields. -/
def Obligations.ValueWrittenIsReadBack : Prop :=
  ∀ (s : State) (v : Word), s.cfg.wellFormed = true →
    (∀ p ∈ shapeOffsets, ∃ t,
      performAll [.write (s.cfg.base + p.2) 4 v, .read (s.cfg.base + p.2) 4] s = .next t ∧
      t.observed = s.observed ++ [v &&& 0x0FFF0FFF]) ∧
    (∀ p ∈ elementWindows, ∀ i < p.1.capacity s.cfg, ∃ t,
      performAll [.write (s.cfg.base + p.2 + 4 * i) 4 v, .read (s.cfg.base + p.2 + 4 * i) 4] s = .next t ∧
      t.observed = s.observed ++ [BitVec.ofNat 32 (v.toNat % 2 ^ p.1.width)])

/-- R56, and 93_implementation_defined.md U15, U16: the bus's byte order and the host's action on a bus error change nothing
the block does. -/
def Obligations.PlatformParametersAreNotObservable : Prop :=
  ∀ (s : State) (e : BusEndian) (b : BusErrorAction),
    step (s.withPlatform e b) = mapNext (fun t => t.withPlatform e b) (step s)

/-- R50 and 92_eei_decisions.md D2: a claim stated over offsets transfers, since the block does the same wherever its window
sits. -/
def Obligations.BehaviourDependsOnOffsetsOnly : Prop :=
  ∀ (s : State) (es : List HostEvent) (b b' : Nat), b % 0x4000 = 0 → b' % 0x4000 = 0 →
    (∀ t, step (s.placedAt b es) = .next t → step (s.placedAt b' es) = .next (t.placedAt b' es.tail)) ∧
    (∀ f, step (s.placedAt b es) = .fault f → ∃ g, step (s.placedAt b' es) = .fault g)

/-- R62, R92: from a state with the accesses `es` pending, the machine's steps perform them in order, one a step, and such a
run is safe exactly when performing them is. That the accesses stand in a list of the state is the model's choice (log
entry 1). -/
def Obligations.StepsPerformPendingAccessesInOrder : Prop :=
  ∀ (es : List HostEvent) (s : State), s.pending = [] →
    Host.Core.run Sys2Proof.core es.length { s with pending := es } = performAll es s ∧
    (RunSafe { s with pending := es } ↔ ∃ t, performAll es s = .next t)

/-- R178, R32: a step stops only at an access that is not admitted, a read of an unwritten element, or a command that passes
its checks and reads an unwritten element; and no step is refused. -/
def Obligations.StepStopsExactlyWhereTheSpecFaults : Prop :=
  ∀ s : State, s.cfg.wellFormed = true →
    (∀ r, step s ≠ .refused r) ∧
    (StepSafe s ↔
      match s.pending with
      | [] => True
      | .reset :: _ => True
      | .read addr n :: _ => ∃ loc, admitted s.cfg addr n = some loc ∧ loc.readable s = true
      | .write addr n v :: _ =>
        ∃ loc, admitted s.cfg addr n = some loc ∧
          (loc = .cmd → ∀ i, decode v = .ok i → shapeError i s = none → ∀ x ∈ i.reads, s.operandsWritten x))

/-! ## GMUL -/

/-- R100: GMUL writes the field product to GMR, succeeds, and writes nothing else, for every operand and state. -/
def Obligations.GmulWritesTheProduct : Prop :=
  ∀ (a b : Byte) (s : State),
    decode (BitVec.ofNat 32 (0x01000000 + a.toNat * 256 + b.toNat)) = .ok (.gmul a b) ∧
    exec (.gmul a b) s = .next { s with gmr := gmul a b, ecode := 0 }

/-- R104: the laws the source states of gmul. -/
def Obligations.GmulFieldLaws : Prop :=
  ∀ a b c : Byte,
    gmul a b = gmul b a ∧ gmul a 1 = a ∧ gmul a 0 = 0 ∧ gmul a (b ^^^ c) = gmul a b ^^^ gmul a c

/-- R105: gmul is the product of polynomials over GF(2), bit k the coefficient of x^k, reduced modulo
x^8 + x^4 + x^3 + x + 1. -/
def Obligations.GmulIsPolynomialProductModulo : Prop :=
  let poly : Byte → Polynomial (ZMod 2) := fun v =>
    ∑ k ∈ Finset.range 8, if v.getLsbD k then Polynomial.X ^ k else 0
  ∀ a b : Byte,
    poly (gmul a b) =
      (poly a * poly b) %ₘ
        (Polynomial.X ^ 8 + Polynomial.X ^ 4 + Polynomial.X ^ 3 + Polynomial.X + 1 : Polynomial (ZMod 2))

/-- R105, the consequence it draws from R101: gmul is associative, and every nonzero byte has exactly one inverse. -/
def Obligations.GmulIsAssociativeWithUniqueInverses : Prop :=
  (∀ a b c : Byte, gmul (gmul a b) c = gmul a (gmul b c)) ∧
  ∀ a : Byte, a ≠ 0 → ∃ b : Byte, gmul a b = 1 ∧ ∀ b' : Byte, gmul a b' = 1 → b' = b

/-- R102: stopping when b is exhausted gives the product of the fixed 8 iterations; once y is 0 the product does not change,
and 8 iterations are enough. -/
def Obligations.GmulStoppingWhenExhaustedAgrees : Prop :=
  (∀ (a b : Byte) (fuel : Nat), 8 ≤ fuel → gmulUntilZero fuel 0 a b = gmul a b) ∧
  (∀ (n : Nat) (p x : Byte), gmulLoop n p x 0 = p) ∧
  (∀ b : Byte, b >>> 8 = 0)

/-- R103: leaving the doubled operand unmasked and masking only the final product gives the same result. -/
def Obligations.GmulWithoutMaskingAgrees : Prop :=
  ∀ a b : Byte, gmulUnmasked a b = gmul a b

/-! ## B2BITS, BITS2B, MBITS, FLAT -/

/-- R130, R131, R132: the two source functions element by element, the alignment error, and the round trip. -/
def Obligations.BytesAndBitsConvertMostSignificantFirst : Prop :=
  (∀ x : List Byte, (bytesToBits x).length = 8 * x.length ∧
    ∀ m k, k < 8 → (bytesToBits x)[8 * m + k]? = (x[m]?).map fun v => BitVec.ofBool (v.getLsbD (7 - k))) ∧
  (∀ t : List Bit, bitsToBytes t = none ↔ t.length % 8 ≠ 0) ∧
  (∀ (t : List Bit) (y : List Byte), bitsToBytes t = some y → y.length = t.length / 8 ∧
    ∀ m < y.length, ((y[m]?).map BitVec.toNat) =
      some (∑ k ∈ Finset.range 8, ((t[8 * m + k]?).elim 0 BitVec.toNat) * 2 ^ (7 - k))) ∧
  (∀ x : List Byte, bitsToBytes (bytesToBits x) = some x)

/-- R133: B2BITS on every shape. An invalid one fails with SHAPE_INVALID; an unwritten element in use is a fault; otherwise T
holds the bits of flat(A) in one row and everything else is unchanged. -/
def Obligations.B2bitsWritesTheBitsOfA : Prop :=
  ∀ s : State, s.Inv →
    let n := s.shapeA.rows.toNat * s.shapeA.cols.toNat
    decode 0x02000000 = .ok .b2bits ∧
    (¬ FitsIn s.cfg.cap s.shapeA → exec .b2bits s = .next (s.failedWith 3)) ∧
    (FitsIn s.cfg.cap s.shapeA → (∃ k < n, s.elem .a k = none) → ∃ f, exec .b2bits s = .fault f) ∧
    (FitsIn s.cfg.cap s.shapeA → (∀ k < n, (s.elem .a k).isSome = true) →
      8 * n < 4096 ∧
      ∃ t, exec .b2bits s = .next t ∧
        t = { s with ecode := 0, shapeT := ⟨1, BitVec.ofNat 12 (8 * n)⟩, bufT := t.bufT } ∧
        ∀ k, t.elem .t k =
          if k < 8 * n then (s.elem .a (k / 8)).map (fun v => BitVec.ofBool (v.getLsbD (7 - k % 8)))
          else s.elem .t k)

/-- R134: BITS2B on every shape. An invalid one fails with SHAPE_INVALID, then a count that is no multiple of 8 with ALIGNMENT;
an unwritten element in use is a fault; otherwise R holds the bytes in one row and everything else is unchanged. -/
def Obligations.Bits2bWritesTheBytesOfT : Prop :=
  ∀ s : State, s.Inv →
    let n := s.shapeT.rows.toNat * s.shapeT.cols.toNat
    decode 0x03000000 = .ok .bits2b ∧
    (¬ FitsIn (8 * s.cfg.cap) s.shapeT → exec .bits2b s = .next (s.failedWith 3)) ∧
    (FitsIn (8 * s.cfg.cap) s.shapeT → n % 8 ≠ 0 → exec .bits2b s = .next (s.failedWith 2)) ∧
    (FitsIn (8 * s.cfg.cap) s.shapeT → n % 8 = 0 → (∃ k < n, s.elem .t k = none) →
      ∃ f, exec .bits2b s = .fault f) ∧
    (FitsIn (8 * s.cfg.cap) s.shapeT → n % 8 = 0 → (∀ k < n, (s.elem .t k).isSome = true) →
      ∃ t, exec .bits2b s = .next t ∧
        t = { s with ecode := 0, shapeR := ⟨1, BitVec.ofNat 12 (n / 8)⟩, bufR := t.bufR } ∧
        (∀ m < n / 8, (t.elem .r m).map BitVec.toNat =
          some (∑ k ∈ Finset.range 8, ((s.elem .t (8 * m + k)).elim 0 BitVec.toNat) * 2 ^ (7 - k))) ∧
        ∀ m, n / 8 ≤ m → t.elem .r m = s.elem .r m)

/-- R135: MBITS on every shape. Row i of T holds the bits of row i of A, each row eight times as wide. -/
def Obligations.MbitsExpandsEachRowOfA : Prop :=
  ∀ s : State, s.Inv →
    let r := s.shapeA.rows.toNat
    let c := s.shapeA.cols.toNat
    decode 0x04000000 = .ok .mbits ∧
    (¬ FitsIn s.cfg.cap s.shapeA → exec .mbits s = .next (s.failedWith 3)) ∧
    (FitsIn s.cfg.cap s.shapeA → (∃ k < r * c, s.elem .a k = none) → ∃ f, exec .mbits s = .fault f) ∧
    (FitsIn s.cfg.cap s.shapeA → (∀ k < r * c, (s.elem .a k).isSome = true) →
      8 * c < 4096 ∧
      ∃ t, exec .mbits s = .next t ∧
        t = { s with ecode := 0, shapeT := ⟨s.shapeA.rows, BitVec.ofNat 12 (8 * c)⟩, bufT := t.bufT } ∧
        (∀ i < r, ∀ q < 8 * c, t.elem .t (i * (8 * c) + q) =
          (s.elem .a (i * c + q / 8)).map (fun v => BitVec.ofBool (v.getLsbD (7 - q % 8)))) ∧
        ∀ k, 8 * (r * c) ≤ k → t.elem .t k = s.elem .t k)

/-- R137: FLAT X for every buffer X. It makes the shape one row of r·c elements and writes nothing else; an invalid shape
fails; no element is read, so it never faults. -/
def Obligations.FlatMakesOneRow : Prop :=
  ∀ (s : State) (x : Buffer), s.Inv →
    let n := (s.shape x).rows.toNat * (s.shape x).cols.toNat
    (∀ w : Word, w &&& 0xFFFCFFFF = 0x05000000 → [Buffer.a, .b, .t, .r][w.toNat / 65536 % 4]? = some x →
      decode w = .ok (.flat x)) ∧
    (¬ FitsIn (x.capacity s.cfg) (s.shape x) → exec (.flat x) s = .next (s.failedWith 3)) ∧
    (FitsIn (x.capacity s.cfg) (s.shape x) →
      n < 4096 ∧
      ∃ t, exec (.flat x) s = .next t ∧
        t = { s with ecode := 0, shapeA := t.shapeA, shapeB := t.shapeB, shapeT := t.shapeT, shapeR := t.shapeR } ∧
        ∀ y, t.shape y = if y = x then ⟨1, BitVec.ofNat 12 n⟩ else s.shape y)

/-- R132: B2BITS or MBITS followed by BITS2B leaves R holding flat(A) as one row of r·c elements. -/
def Obligations.BitsAndBackLeaveFlatAInR : Prop :=
  ∀ (s : State) (i : Instr), s.Inv → i = .b2bits ∨ i = .mbits → FitsIn s.cfg.cap s.shapeA → s.operandsWritten .a →
    ∃ t u, exec i s = .next t ∧ exec .bits2b t = .next u ∧
      u.ecode = 0 ∧ u.shapeR.rows = 1 ∧
      u.shapeR.cols.toNat = s.shapeA.rows.toNat * s.shapeA.cols.toNat ∧
      ∀ k < s.shapeA.rows.toNat * s.shapeA.cols.toNat,
        (u.elem .r k).map BitVec.toNat = (s.elem .a k).map BitVec.toNat

/-- R136: FLAT T after MBITS leaves the same state as B2BITS alone. -/
def Obligations.MbitsThenFlatIsB2bits : Prop :=
  ∀ s : State, s.Inv → FitsIn s.cfg.cap s.shapeA → s.operandsWritten .a →
    ∃ t u, exec .mbits s = .next t ∧ exec (.flat .t) t = .next u ∧ exec .b2bits s = .next u

/-! ## MXOR, MSUM -/

/-- R150, R151, R152: MXOR on every pair of shapes, with the errors in their order and the exclusive or of each lane. -/
def Obligations.MxorWritesTheExclusiveOrOfEachLane : Prop :=
  ∀ s : State, s.Inv →
    let n := s.shapeA.rows.toNat * s.shapeA.cols.toNat
    let valid := FitsIn s.cfg.cap s.shapeA ∧ FitsIn s.cfg.cap s.shapeB
    decode 0x06000000 = .ok .mxor ∧
    (¬ valid → exec .mxor s = .next (s.failedWith 3)) ∧
    (valid → ¬ Conforms s.shapeA s.shapeB → exec .mxor s = .next (s.failedWith 1)) ∧
    (valid → Conforms s.shapeA s.shapeB → (∃ k < n, s.elem .a k = none ∨ s.elem .b k = none) →
      ∃ f, exec .mxor s = .fault f) ∧
    (valid → Conforms s.shapeA s.shapeB →
      (∀ k < n, (s.elem .a k).isSome = true ∧ (s.elem .b k).isSome = true) →
      ∃ t, exec .mxor s = .next t ∧
        t = { s with ecode := 0, shapeR := s.shapeA, bufR := t.bufR } ∧
        (∀ k < n, (t.elem .r k).map BitVec.toNat =
          some ((s.elem .a k).elim 0 BitVec.toNat ^^^ (s.elem .b k).elim 0 BitVec.toNat)) ∧
        ∀ k, n ≤ k → t.elem .r k = s.elem .r k)

/-- R153, R154: MSUM on every pair of shapes; each element of R is the exact sum, 0 to 510, never reduced modulo 256. -/
def Obligations.MsumWritesTheExactSumOfEachLane : Prop :=
  ∀ s : State, s.Inv →
    let n := s.shapeA.rows.toNat * s.shapeA.cols.toNat
    let valid := FitsIn s.cfg.cap s.shapeA ∧ FitsIn s.cfg.cap s.shapeB
    decode 0x07000000 = .ok .msum ∧
    (¬ valid → exec .msum s = .next (s.failedWith 3)) ∧
    (valid → ¬ Conforms s.shapeA s.shapeB → exec .msum s = .next (s.failedWith 1)) ∧
    (valid → Conforms s.shapeA s.shapeB → (∃ k < n, s.elem .a k = none ∨ s.elem .b k = none) →
      ∃ f, exec .msum s = .fault f) ∧
    (valid → Conforms s.shapeA s.shapeB →
      (∀ k < n, (s.elem .a k).isSome = true ∧ (s.elem .b k).isSome = true) →
      ∃ t, exec .msum s = .next t ∧
        t = { s with ecode := 0, shapeR := s.shapeA, bufR := t.bufR } ∧
        (∀ k < n, (t.elem .r k).map BitVec.toNat =
          some ((s.elem .a k).elim 0 BitVec.toNat + (s.elem .b k).elim 0 BitVec.toNat)) ∧
        ∀ k, n ≤ k → t.elem .r k = s.elem .r k)

/-- R157, first law: with a nonzero row count, exchanging the contents and shapes of A and B leaves the R that MXOR or MSUM
writes, and its shape, unchanged. -/
def Obligations.MatrixCommandsIgnoreOperandOrder : Prop :=
  ∀ (s t : State) (i : Instr), i = .mxor ∨ i = .msum → s.shapeA.rows ≠ 0 → exec i s = .next t →
    ∃ u, exec i s.swapOperands = .next u ∧ u.bufR = t.bufR ∧ u.shapeR = t.shapeR ∧ u.ecode = t.ecode ∧ u.err = t.err

/-- R157, second law: MXOR of a matrix with itself is zero in every element of the result. -/
def Obligations.MxorOfAMatrixWithItselfIsZero : Prop :=
  ∀ s : State, s.Inv → s.shapeB = s.shapeA → s.bufB = s.bufA → FitsIn s.cfg.cap s.shapeA → s.operandsWritten .a →
    ∃ t, exec .mxor s = .next t ∧ t.ecode = 0 ∧ t.shapeR = s.shapeA ∧ ∀ k < s.inUse .a, t.elem .r k = some 0

/-- R157, third law: MXOR and MSUM write the same element k of R exactly when A[k] AND B[k] = 0. -/
def Obligations.MxorAndMsumAgreeWhereNoBitIsShared : Prop :=
  ∀ s t u : State, s.Inv → exec .mxor s = .next t → exec .msum s = .next u → t.ecode = 0 →
    u.ecode = 0 ∧
    ∀ k < s.inUse .a, ∀ a b : Byte, s.elem .a k = some a → s.elem .b k = some b →
      (t.elem .r k = u.elem .r k ↔ a &&& b = 0)

/-! ## Errors -/

/-- R173: the order in which a command checks, and that a fault on an unwritten element comes only after every check has
passed. -/
def Obligations.ErrorsAreReportedInOrder : Prop :=
  ∀ (s : State) (w : Word),
    (∀ e, decode w = .error e → execute w s = .next (s.failedWith 4)) ∧
    ∀ i, decode w = .ok i →
      let valid := ∀ x ∈ i.checks, FitsIn (x.capacity s.cfg) (s.shape x)
      (¬ valid → execute w s = .next (s.failedWith 3)) ∧
      (valid → i = .mxor ∨ i = .msum → ¬ Conforms s.shapeA s.shapeB → execute w s = .next (s.failedWith 1)) ∧
      (valid → i = .bits2b → s.inUse .t % 8 ≠ 0 → execute w s = .next (s.failedWith 2)) ∧
      (∀ f, execute w s = .fault f →
        valid ∧ (i = .mxor ∨ i = .msum → Conforms s.shapeA s.shapeB) ∧ (i = .bits2b → s.inUse .t % 8 = 0))

/-- R170: which codes each command can record, and that ERR is set by every failure and by nothing else. -/
def Obligations.EachCommandRecordsOnlyItsCodes : Prop :=
  ∀ (s t : State) (i : Instr), exec i s = .next t →
    t.err = (s.err || decide (t.ecode ≠ 0)) ∧
    match i with
    | .gmul _ _ => t.ecode = 0
    | .b2bits => t.ecode = 0 ∨ t.ecode = 3
    | .bits2b => t.ecode = 0 ∨ t.ecode = 2 ∨ t.ecode = 3
    | .mbits => t.ecode = 0 ∨ t.ecode = 3
    | .flat _ => t.ecode = 0 ∨ t.ecode = 3
    | .mxor => t.ecode = 0 ∨ t.ecode = 1 ∨ t.ecode = 3
    | .msum => t.ecode = 0 ∨ t.ecode = 1 ∨ t.ecode = 3

/-- R172: the state after a failing command is the state before it, except STATUS. -/
def Obligations.FailedCommandChangesOnlyStatus : Prop :=
  ∀ (s t : State) (w : Word), execute w s = .next t → t.ecode ≠ 0 → t = s.failedWith t.ecode

/-- R33: no command's behaviour depends on ECODE or ERR; only what it records in ERR is added to what ERR was. -/
def Obligations.StatusNeverSteersACommand : Prop :=
  ∀ (s : State) (w : Word) (code : BitVec 3) (e : Bool),
    (∀ t, execute w s = .next t →
      execute w { s with ecode := code, err := e } = .next { t with err := e || decide (t.ecode ≠ 0) }) ∧
    (∀ f, execute w s = .fault f → execute w { s with ecode := code, err := e } = .fault f)

/-- R174: after a sequence of commands begun with ERR clear, ERR is set exactly when at least one of them failed, and ECODE is
the outcome of the last command only. -/
def Obligations.ErrTellsWhetherAnyCommandFailed : Prop :=
  ∀ (s t : State) (ws : List Word), s.cfg.wellFormed = true → s.err = false →
    performAll (ws.map (commandWrite s.cfg)) s = .next t →
    (t.err = true ↔
      ∃ k < ws.length, ∃ u, performAll ((ws.take (k + 1)).map (commandWrite s.cfg)) s = .next u ∧ u.ecode ≠ 0) ∧
    ∀ w ∈ ws.getLast?, ∃ u, performAll (ws.dropLast.map (commandWrite s.cfg)) s = .next u ∧
      execute w u = .next t

/-! ## Whole-machine rules -/

/-- The machine's invariant is kept by every step from every state that meets it (R27, R30, 93_implementation_defined.md
U9). -/
def Obligations.StepKeepsTheInvariant : Prop :=
  ∀ s t : State, s.Inv → step s = .next t → t.Inv

/-- The invariant holds after reset, for every configuration the spec allows. -/
def Obligations.ResetMeetsTheInvariant : Prop :=
  ∀ c : Config, c.wellFormed = true → (State.resetWith c).Inv

/-- R190, R191: the reset input, taken between two accesses in any state, sets every register to its reset value and leaves
every element unwritten; CAPS and the other parameters are not affected. That the remaining accesses and the record of reads
stay is the model's choice (log entry 9). -/
def Obligations.ResetInputSetsTheResetState : Prop :=
  ∀ (s : State) (es : List HostEvent), s.pending = .reset :: es →
    ∃ t, step s = .next t ∧
      t.ecode = 0 ∧ t.err = false ∧ t.gmr = 0 ∧
      (∀ x, t.shape x = ⟨0, 0⟩) ∧ (∀ x i, t.elem x i = none) ∧
      t.cfg = s.cfg ∧ t.pending = es ∧ t.observed = s.observed ∧
      { t with pending := [], observed := [] } = State.resetWith s.cfg

/-- R193: each command, issued alone right after reset, succeeds and leaves the result shape named there. -/
def Obligations.EveryCommandSucceedsRightAfterReset : Prop :=
  ∀ c : Config, c.wellFormed = true →
    let s := State.resetWith c
    (∀ a b, exec (.gmul a b) s = .next { s with gmr := gmul a b }) ∧
    exec .b2bits s = .next { s with shapeT := ⟨1, 0⟩ } ∧
    exec .bits2b s = .next { s with shapeR := ⟨1, 0⟩ } ∧
    exec .mbits s = .next { s with shapeT := ⟨0, 0⟩ } ∧
    (∀ x, exec (.flat x) s = .next (s.setShape x ⟨1, 0⟩)) ∧
    exec .mxor s = .next { s with shapeR := ⟨0, 0⟩ } ∧
    exec .msum s = .next { s with shapeR := ⟨0, 0⟩ }

/-- R26, R35: no step changes the configuration, so CAPS always reads the same. -/
def Obligations.ConfigurationNeverChanges : Prop :=
  ∀ s t : State, step s = .next t → t.cfg = s.cfg

/-- R25: GMR is 0 after reset, and a step changes it only by the reset input or by a CMD write of a GMUL, which leaves the
product there. -/
def Obligations.OnlyGmulWritesGmr : Prop :=
  (∀ c, (State.resetWith c).gmr = 0) ∧
  (∀ s : State, readTarget s .gmr = .ok (BitVec.ofNat 32 s.gmr.toNat)) ∧
  ∀ (s t : State), s.cfg.wellFormed = true → step s = .next t →
    (t.gmr = s.gmr ∧ ¬ ∃ w a b es, s.pending = .write s.cfg.base 4 w :: es ∧ decode w = .ok (.gmul a b)) ∨
    (∃ es, s.pending = .reset :: es ∧ t.gmr = 0) ∨
    (∃ w a b es, s.pending = .write s.cfg.base 4 w :: es ∧ decode w = .ok (.gmul a b) ∧ t.gmr = gmul a b)

/-- R31: an element keeps its value until a host write to it or a command that writes it (or the reset input), a command writes
only the elements of its result shape, and a failing command writes no element and no shape register. -/
def Obligations.ElementKeepsItsValueUntilWritten : Prop :=
  ∀ (s t : State), s.Inv → step s = .next t →
    (∀ p ∈ elementWindows, ∀ k, t.elem p.1 k ≠ s.elem p.1 k →
      (∃ es, s.pending = .reset :: es) ∨
      (∃ v es, s.pending = .write (s.cfg.base + p.2 + 4 * k) 4 v :: es) ∨
      (∃ w i es, s.pending = .write s.cfg.base 4 w :: es ∧ decode w = .ok i ∧ i.writes = some p.1 ∧
        k < t.inUse p.1 ∧ t.ecode = 0)) ∧
    (∀ w es, s.pending = .write s.cfg.base 4 w :: es → t.ecode ≠ 0 →
      (∀ x k, t.elem x k = s.elem x k) ∧ ∀ x, t.shape x = s.shape x)

/-- R59: writing the same command word twice in a row leaves the same state as writing it once. -/
def Obligations.RepeatingACommandChangesNothing : Prop :=
  ∀ (s t : State) (w : Word), s.Inv → execute w s = .next t → execute w t = .next t

/-! ## Host programs and text codecs -/

/-- R89, R12: LOADM sets the shape and puts element (i, j) at index i·c + j, cut to the element's width, and changes nothing
else. -/
def Obligations.LoadmPlacesTheMatrixRowMajor : Prop :=
  ∀ (s : State) (x : Buffer) (rows : List (List Word)) (c : Nat), s.cfg.wellFormed = true →
    (HostLine.loadm x rows).wellFormed = true → (∀ row ∈ rows, row.length = c) →
    rows.length * c ≤ x.capacity s.cfg →
    ∃ t, performAll ((HostLine.loadm x rows).expand s.cfg) s = .next t ∧
      (t.shape x).rows.toNat = rows.length ∧ (t.shape x).cols.toNat = c ∧
      (∀ i (hi : i < rows.length) j (hj : j < rows[i].length),
        t.elem x (i * c + j) = some (BitVec.ofNat x.width rows[i][j].toNat)) ∧
      (∀ y k, (y ≠ x ∨ rows.length * c ≤ k) → t.elem y k = s.elem y k) ∧
      (∀ y, y ≠ x → t.shape y = s.shape y) ∧
      t.ecode = s.ecode ∧ t.err = s.err ∧ t.gmr = s.gmr ∧ t.cfg = s.cfg ∧
      t.pending = s.pending ∧ t.observed = s.observed

/-- R194, R196: from any state, operand matrices loaded into A and B as the boot steps say let MXOR and MSUM run, and the reads
that follow see the whole result. -/
def Obligations.LoadedOperandsMakeCommandsRun : Prop :=
  ∀ (s : State) (rowsA rowsB : List (List Word)) (c : Nat), s.cfg.wellFormed = true →
    (HostLine.loadm .a rowsA).wellFormed = true → (HostLine.loadm .b rowsB).wellFormed = true →
    (∀ row ∈ rowsA, row.length = c) → (∀ row ∈ rowsB, row.length = c) → rowsB.length = rowsA.length →
    rowsA.length ≤ s.cfg.cap → c ≤ s.cfg.cap → rowsA.length * c ≤ s.cfg.cap →
    let run (i : Instr) (n : Nat) :=
      performAll (expandProgram s.cfg [.loadm .a rowsA, .loadm .b rowsB, .command i, .rd .status, .read .r n]) s
    (∃ t, run .mxor (rowsA.length * c) = .next t ∧
      t.observed = s.observed ++ [BitVec.ofNat 32 (if s.err then 256 else 0)] ++
        List.zipWith (fun a b => (a ^^^ b) &&& 0xFF) rowsA.flatten rowsB.flatten) ∧
    (∃ t, run .msum (rowsA.length * c) = .next t ∧
      t.observed = s.observed ++ [BitVec.ofNat 32 (if s.err then 256 else 0)] ++
        List.zipWith (fun a b => (a &&& 0xFF) + (b &&& 0xFF)) rowsA.flatten rowsB.flatten)

/-- R194, R196: from any state, a matrix loaded into A as the boot steps say lets B2BITS and MBITS run, and one loaded into T
with a multiple of 8 elements lets BITS2B run; the reads that follow see the whole result, most significant bit first. -/
def Obligations.LoadedBytesAndBitsConvert : Prop :=
  ∀ (s : State) (rows : List (List Word)) (c : Nat), s.cfg.wellFormed = true → (∀ row ∈ rows, row.length = c) →
    let n := rows.length * c
    let status := BitVec.ofNat 32 (if s.err then 256 else 0)
    let bit (k : Nat) : Nat := ((rows.flatten)[k]?).elim 0 (fun v => v.toNat % 2)
    ((HostLine.loadm .a rows).wellFormed = true → FitsCounts s.cfg.cap rows.length c →
      ∀ i : Instr, i = .b2bits ∨ i = .mbits →
        ∃ t, performAll (expandProgram s.cfg [.loadm .a rows, .command i, .rd .status, .read .t (8 * n)]) s = .next t ∧
          t.observed = s.observed ++ [status] ++
            rows.flatten.flatMap (fun v => [7, 6, 5, 4, 3, 2, 1, 0].map fun k => BitVec.ofNat 32 (v.toNat / 2 ^ k % 2))) ∧
    ((HostLine.loadm .t rows).wellFormed = true → FitsCounts (8 * s.cfg.cap) rows.length c → n % 8 = 0 →
      ∃ t, performAll (expandProgram s.cfg [.loadm .t rows, .command .bits2b, .rd .status, .read .r (n / 8)]) s = .next t ∧
        t.observed = s.observed ++ [status] ++
          (List.range (n / 8)).map (fun m => BitVec.ofNat 32 (∑ k ∈ Finset.range 8, bit (8 * m + k) * 2 ^ (7 - k))))

/-- R110, R111, R112, R113, R117: which characters are hex digits and their values, given literally; HEX2B of any string, marked
or not, is CodecError exactly when a character left after one leading "0x" is no hex digit; otherwise it is the bytes of the
digit pairs, an odd count read with one 0 in front. So it gives a byte sequence back from its canonical form, marked or not, in
lower, upper or mixed case. -/
def Obligations.HexDecodesTheCanonicalForm : Prop :=
  let lower := ['0', '1', '2', '3', '4', '5', '6', '7', '8', '9', 'a', 'b', 'c', 'd', 'e', 'f']
  let upper := ['0', '1', '2', '3', '4', '5', '6', '7', '8', '9', 'A', 'B', 'C', 'D', 'E', 'F']
  let unmarked : List Char → List Char := fun s =>
    match s with
    | '0' :: 'x' :: u => u
    | _ => s
  let padded : List Char → List Char := fun u => if u.length % 2 = 1 then '0' :: u else u
  (∀ (ch : Char) (d : Nat), hexval ch = some d ↔ lower[d]? = some ch ∨ upper[d]? = some ch) ∧
  (∀ s : List Char, hex2b s = .error .codecError ↔ ∃ ch ∈ unmarked s, hexval ch = none) ∧
  (∀ (s : List Char) (x : List Byte), hex2b s = .ok x →
    2 * x.length = (padded (unmarked s)).length ∧
    ∀ k (hk : k < x.length), ∃ hi lo,
      ((padded (unmarked s))[2 * k]?).bind hexval = some hi ∧
      ((padded (unmarked s))[2 * k + 1]?).bind hexval = some lo ∧
      x[k].toNat = hi * 16 + lo) ∧
  (∀ s : List Char, (∀ ch ∈ s, (hexval ch).isSome = true) → s.length % 2 = 1 →
    hex2b s = hex2b ('0' :: s) ∧ hex2b ('0' :: 'x' :: s) = hex2b ('0' :: s)) ∧
  (∀ (x : List Byte) (s : List Char), s.length = 2 * x.length →
    (∀ k (hk : k < x.length),
      (s[2 * k]?).bind hexval = some (x[k].toNat / 16) ∧ (s[2 * k + 1]?).bind hexval = some (x[k].toNat % 16)) →
    hex2b s = .ok x ∧ hex2b ('0' :: 'x' :: s) = .ok x) ∧
  (∀ x : List Byte,
    hex2b (canonHex lowerDigit x) = .ok x ∧ hex2b ('0' :: 'x' :: canonHex lowerDigit x) = .ok x ∧
    hex2b (canonHex upperDigit x) = .ok x ∧ hex2b ('0' :: 'x' :: canonHex upperDigit x) = .ok x)

/-- R114, R115, R116: B2HEX renders every byte in place with two lower-case digits, given literally, refuses a value above 255,
and is not read back by HEX2B. -/
def Obligations.DisplayRendersBytesAndIsNoHexString : Prop :=
  let lower := ['0', '1', '2', '3', '4', '5', '6', '7', '8', '9', 'a', 'b', 'c', 'd', 'e', 'f']
  ∀ x : List Nat,
    ((∃ v ∈ x, 255 < v) → b2hex x = .error .codecError) ∧
    ((∀ v ∈ x, v ≤ 255) → ∃ s, b2hex x = .ok s ∧
      s.length = (if x = [] then 2 else 6 * x.length) ∧
      s[0]? = some '[' ∧ s.getLast? = some ']' ∧
      (∀ k (hk : k < x.length),
        s[6 * k + 1]? = some '0' ∧ s[6 * k + 2]? = some 'x' ∧
        x[k] / 16 < 16 ∧ s[6 * k + 3]? = lower[x[k] / 16]? ∧ s[6 * k + 4]? = lower[x[k] % 16]? ∧
        (k + 1 < x.length → s[6 * k + 5]? = some ',' ∧ s[6 * k + 6]? = some ' ')) ∧
      hex2b s = .error .codecError)
end

