-- ==== Sys2Proof/Laws/Memory.lean ====
section
/-! SUPPORT. The laws of buffer contents: what a read finds after a write, that every write keeps the canonical form and the
bound on indices, and that buffers in canonical form with equal reads are equal. -/

namespace Sys2Proof.Machine

variable {w : Nat}

@[simp] theorem Memory.read_nil (i : Nat) : Memory.read ([] : Memory w) i = none := rfl

/-- A read after a write: the value at the written index, and what was there before everywhere else. -/
theorem Memory.read_write (m : Memory w) (i j : Nat) (v : BitVec w) :
    Memory.read (Memory.write m i v) j = if j = i then some v else Memory.read m j := by
  induction m with
  | nil => simp [Memory.write, Memory.read]
  | cons p m ih =>
    obtain ⟨k, u⟩ := p
    simp only [Memory.write]
    split
    · simp [Memory.read]
    · split
      · subst k; simp only [Memory.read]; split <;> rfl
      · simp only [Memory.read, ih]
        by_cases hk : j = k <;> by_cases hi : j = i <;> simp_all

@[simp] theorem Memory.read_write_self (m : Memory w) (i : Nat) (v : BitVec w) :
    Memory.read (Memory.write m i v) i = some v := by
  simp [Memory.read_write]

theorem Memory.read_write_of_ne (m : Memory w) {i j : Nat} (h : j ≠ i) (v : BitVec w) :
    Memory.read (Memory.write m i v) j = Memory.read m j := by
  simp [Memory.read_write, h]

/-- What a written sequence reads as: its own values from its first index on, and everything else as before. -/
theorem Memory.read_writeFrom (vs : List (BitVec w)) (m : Memory w) (i j : Nat) :
    Memory.read (Memory.writeFrom m i vs) j = if i ≤ j ∧ j < i + vs.length then vs[j - i]? else Memory.read m j := by
  induction vs generalizing m i with
  | nil => simp [Memory.writeFrom]
  | cons v vs ih =>
    rw [Memory.writeFrom, ih, Memory.read_write]
    by_cases hj : j = i
    · subst hj; simp
    · by_cases h : i ≤ j ∧ j < i + (v :: vs).length
      · have h1 : i + 1 ≤ j ∧ j < i + 1 + vs.length := by simp at h; omega
        have h2 : j - i = (j - (i + 1)) + 1 := by omega
        simp only [if_pos h, if_pos h1, if_neg hj, h2, List.getElem?_cons_succ]
      · have h1 : ¬ (i + 1 ≤ j ∧ j < i + 1 + vs.length) := by simp at h; omega
        simp only [h, h1, hj, if_false]

/-- The entries after a write are the old ones and the new one. -/
theorem Memory.mem_write {m : Memory w} {i : Nat} {v : BitVec w} {p : Nat × BitVec w} (h : p ∈ Memory.write m i v) :
    p = (i, v) ∨ p ∈ m := by
  induction m with
  | nil => simpa [Memory.write] using h
  | cons q m ih =>
    obtain ⟨k, u⟩ := q
    simp only [Memory.write] at h
    split at h
    · simpa using h
    · split at h
      · rcases List.mem_cons.1 h with h | h
        · exact .inl h
        · exact .inr (List.mem_cons_of_mem _ h)
      · rcases List.mem_cons.1 h with h | h
        · exact .inr (h ▸ List.mem_cons_self)
        · rcases ih h with h | h
          · exact .inl h
          · exact .inr (List.mem_cons_of_mem _ h)

/-- A write keeps the canonical form. -/
theorem Memory.wf_write {m : Memory w} (h : Memory.wf m) (i : Nat) (v : BitVec w) : Memory.wf (Memory.write m i v) := by
  induction m with
  | nil => simp [Memory.write]
  | cons q m ih =>
    obtain ⟨k, u⟩ := q
    obtain ⟨hq, hm⟩ := List.pairwise_cons.1 h
    simp only [Memory.write]
    split
    · refine List.pairwise_cons.2 ⟨fun p hp => ?_, h⟩
      rcases List.mem_cons.1 hp with rfl | hp
      · assumption
      · have := hq p hp; simp at this ⊢; omega
    · split
      · subst k; exact List.pairwise_cons.2 ⟨hq, hm⟩
      · refine List.pairwise_cons.2 ⟨fun p hp => ?_, ih hm⟩
        rcases Memory.mem_write hp with rfl | hp
        · simp; omega
        · exact hq p hp

/-- A write below the element count keeps every entry below it. -/
theorem Memory.below_write {n : Nat} {m : Memory w} (h : Memory.below n m) {i : Nat} (hi : i < n) (v : BitVec w) :
    Memory.below n (Memory.write m i v) := by
  intro p hp
  rcases Memory.mem_write hp with rfl | hp
  · exact hi
  · exact h p hp

theorem Memory.wf_writeFrom (vs : List (BitVec w)) {m : Memory w} (h : Memory.wf m) (i : Nat) :
    Memory.wf (Memory.writeFrom m i vs) := by
  induction vs generalizing m i with
  | nil => exact h
  | cons v vs ih => exact ih (Memory.wf_write h i v) (i + 1)

theorem Memory.below_writeFrom {n : Nat} (vs : List (BitVec w)) {m : Memory w} (h : Memory.below n m) (i : Nat)
    (hi : i + vs.length ≤ n) : Memory.below n (Memory.writeFrom m i vs) := by
  induction vs generalizing m i with
  | nil => exact h
  | cons v vs ih =>
    simp only [List.length_cons] at hi
    exact ih (Memory.below_write h (by omega) v) (i + 1) (by omega)

/-- Nothing listed lies at an index below every entry's. -/
theorem Memory.read_eq_none_of_lt {m : Memory w} {i : Nat} (h : ∀ p ∈ m, i < p.1) : Memory.read m i = none := by
  induction m with
  | nil => rfl
  | cons q m ih =>
    have hq : i < q.1 := h q List.mem_cons_self
    simp only [Memory.read]
    rw [if_neg (by omega), ih (fun p hp => h p (List.mem_cons_of_mem _ hp))]

/-- Buffers in canonical form with equal reads are equal data. -/
theorem Memory.ext_of_wf {m n : Memory w} (hm : Memory.wf m) (hn : Memory.wf n)
    (h : ∀ i, Memory.read m i = Memory.read n i) : m = n := by
  induction m generalizing n with
  | nil =>
    cases n with
    | nil => rfl
    | cons q n => have := h q.1; simp [Memory.read] at this
  | cons p m ih =>
    cases n with
    | nil => have := h p.1; simp [Memory.read] at this
    | cons q n =>
      obtain ⟨i, u⟩ := p
      obtain ⟨j, v⟩ := q
      obtain ⟨hp, hm'⟩ := List.pairwise_cons.1 hm
      obtain ⟨hq, hn'⟩ := List.pairwise_cons.1 hn
      have head : i = j := by
        rcases Nat.lt_trichotomy i j with hij | hij | hij
        · have := h i
          simp only [Memory.read, if_true, if_neg (show ¬ i = j by omega)] at this
          rw [Memory.read_eq_none_of_lt (fun p hp => by have := hq p hp; simp at this; omega)] at this
          cases this
        · exact hij
        · have := h j
          simp only [Memory.read, if_true, if_neg (show ¬ j = i by omega)] at this
          rw [Memory.read_eq_none_of_lt (fun p hp' => by have := hp p hp'; simp at this; omega)] at this
          cases this
      subst head
      have hv : u = v := by have := h i; simpa [Memory.read] using this
      subst hv
      refine congrArg _ (ih hm' hn' fun k => ?_)
      by_cases hk : k = i
      · subst hk
        rw [Memory.read_eq_none_of_lt (fun p hp' => hp p hp'), Memory.read_eq_none_of_lt (fun p hp' => hq p hp')]
      · have := h k
        simpa [Memory.read, hk] using this

/-- The buffers of the state after reset are in canonical form, whatever the configuration. -/
theorem wf_buf_resetWith (c : Config) (x : Buffer) : Memory.wf ((State.resetWith c).buf x) := by
  cases x <;> exact List.Pairwise.nil

/-! The same laws seen through `elem`. -/

variable (s : State)

theorem State.elem_setElem (x : Buffer) (i j : Nat) (v : BitVec x.width) :
    (s.setElem x i v).elem x j = if j = i then some v else s.elem x j := by
  cases x <;> exact Memory.read_write ..

theorem State.elem_setElem_of_ne {x y : Buffer} (h : y ≠ x) (i j : Nat) (v : BitVec x.width) :
    (s.setElem x i v).elem y j = s.elem y j := by
  cases x <;> cases y <;> first | rfl | exact absurd rfl h

theorem State.elem_writeElems (x : Buffer) (i j : Nat) (vs : List (BitVec x.width)) :
    (s.writeElems x i vs).elem x j = if i ≤ j ∧ j < i + vs.length then vs[j - i]? else s.elem x j := by
  cases x <;> exact Memory.read_writeFrom ..

theorem State.elem_writeElems_of_ne {x y : Buffer} (h : y ≠ x) (i j : Nat) (vs : List (BitVec x.width)) :
    (s.writeElems x i vs).elem y j = s.elem y j := by
  cases x <;> cases y <;> first | rfl | exact absurd rfl h

end Sys2Proof.Machine
end

