-- ==== Sys2Proof/Laws/Operands.lean ====
section
/-! SUPPORT. What reading operands can do: `collect` and `readElems` answer the whole sequence or the first fault, and
`onOperands` ends a command accordingly. -/

namespace Sys2Proof.Machine

variable {α : Type}

/-- `collect` answers a sequence exactly when every read does, and then it holds each value in its place. -/
theorem collect_eq_ok_iff (get : Nat → Except Fault α) (i n : Nat) (vs : List α) :
    collect get i n = .ok vs ↔ vs.length = n ∧ ∀ k (h : k < vs.length), get (i + k) = .ok vs[k] := by
  induction n generalizing i vs with
  | zero => cases vs <;> simp [collect]
  | succ n ih =>
    simp only [collect]
    cases hg : get i with
    | error f =>
      simp only [reduceCtorEq, false_iff]
      rintro ⟨hl, h⟩
      have := h 0 (by omega)
      simp [hg] at this
    | ok v =>
      cases hc : collect get (i + 1) n with
      | error f =>
        simp only [reduceCtorEq, false_iff]
        rintro ⟨hl, h⟩
        cases vs with
        | nil => simp at hl
        | cons u us =>
          have := (ih (i + 1) us).2 ⟨by simpa using hl, fun k hk => by
            have := h (k + 1) (by simpa using hk)
            simpa [Nat.add_assoc, Nat.add_comm 1] using this⟩
          simp [hc] at this
      | ok us =>
        obtain ⟨hl, h⟩ := (ih (i + 1) us).1 hc
        constructor
        · intro e
          simp only [Except.ok.injEq] at e
          subst e
          refine ⟨by simp [hl], fun k hk => ?_⟩
          cases k with
          | zero => simpa using hg
          | succ k =>
            have := h k (by simpa using hk)
            simpa [Nat.add_assoc, Nat.add_comm 1] using this
        · rintro ⟨hl', h'⟩
          cases vs with
          | nil => simp at hl'
          | cons u vs =>
            have h0 := h' 0 (by simp)
            simp only [Nat.add_zero, hg, List.getElem_cons_zero, Except.ok.injEq] at h0
            subst h0
            simp only [Except.ok.injEq, List.cons.injEq, true_and]
            refine List.ext_getElem (by simp at hl'; omega) fun k hk hk' => ?_
            have h1 := h k hk
            have h2 := h' (k + 1) (by simpa using hk')
            simp only [List.getElem_cons_succ] at h2
            rw [show i + (k + 1) = i + 1 + k by omega, h1] at h2
            simpa using h2

/-- `collect` answers exactly when no read in its range is a fault. -/
theorem collect_isOk_iff (get : Nat → Except Fault α) (i n : Nat) :
    (∃ vs, collect get i n = .ok vs) ↔ ∀ k < n, ∃ v, get (i + k) = .ok v := by
  induction n generalizing i with
  | zero => simp [collect]
  | succ n ih =>
    simp only [collect]
    constructor
    · rintro ⟨vs, h⟩ k hk
      cases hg : get i with
      | error f => simp [hg] at h
      | ok v =>
        cases hc : collect get (i + 1) n with
        | error f => simp [hg, hc] at h
        | ok us =>
          cases k with
          | zero => exact ⟨v, hg⟩
          | succ k =>
            obtain ⟨u, hu⟩ := (ih (i + 1)).1 ⟨us, hc⟩ k (by omega)
            exact ⟨u, by rw [← hu]; congr 1; omega⟩
    · intro h
      obtain ⟨v, hv⟩ := h 0 (by omega)
      obtain ⟨us, hc⟩ := (ih (i + 1)).2 fun k hk => by
        obtain ⟨u, hu⟩ := h (k + 1) (by omega)
        exact ⟨u, by rw [← hu]; congr 1; omega⟩
      simp only [Nat.add_zero] at hv
      exact ⟨v :: us, by simp [hv, hc]⟩

/-- A fault of `collect` is the fault of one of its reads. -/
theorem collect_eq_error {get : Nat → Except Fault α} {i n : Nat} {f : Fault} (h : collect get i n = .error f) :
    ∃ k < n, get (i + k) = .error f := by
  induction n generalizing i with
  | zero => simp [collect] at h
  | succ n ih =>
    simp only [collect] at h
    cases hg : get i with
    | error g =>
      simp only [hg, Except.error.injEq] at h
      exact ⟨0, by omega, by simpa [h] using hg⟩
    | ok v =>
      cases hc : collect get (i + 1) n with
      | ok us => simp [hg, hc] at h
      | error g =>
        simp only [hg, hc, Except.error.injEq] at h
        obtain ⟨k, hk, e⟩ := ih (h ▸ hc)
        exact ⟨k + 1, by omega, by rw [← e]; congr 1; omega⟩

@[simp] theorem collect_zero (get : Nat → Except Fault α) (i : Nat) : collect get i 0 = .ok [] := rfl

/-- A command's read of an element answers its value exactly when it is written. -/
theorem readElem_eq_ok_iff (s : State) (x : Buffer) (i : Nat) (v : BitVec x.width) :
    readElem s x i = .ok v ↔ s.elem x i = some v := by
  unfold readElem
  cases s.elem x i <;> simp

/-- A command's read of an element faults exactly when it is unwritten, and names it. -/
theorem readElem_eq_error_iff (s : State) (x : Buffer) (i : Nat) (f : Fault) :
    readElem s x i = .error f ↔ s.elem x i = none ∧ f = .unwrittenElement x i := by
  unfold readElem
  cases s.elem x i <;> simp [eq_comm]

/-- A command's read of a sequence answers exactly the values of its elements. -/
theorem readElems_eq_ok_iff (s : State) (x : Buffer) (i n : Nat) (vs : List (BitVec x.width)) :
    readElems s x i n = .ok vs ↔ vs.length = n ∧ ∀ k (h : k < vs.length), s.elem x (i + k) = some vs[k] := by
  simp only [readElems, collect_eq_ok_iff, readElem_eq_ok_iff]

/-- A command can read a sequence exactly when each of its elements is written. -/
theorem readElems_isOk_iff (s : State) (x : Buffer) (i n : Nat) :
    (∃ vs, readElems s x i n = .ok vs) ↔ ∀ k < n, (s.elem x (i + k)).isSome = true := by
  simp only [readElems, collect_isOk_iff, readElem_eq_ok_iff, Option.isSome_iff_exists]

/-- A faulting read of a sequence names an unwritten element of it. -/
theorem readElems_eq_error {s : State} {x : Buffer} {i n : Nat} {f : Fault} (h : readElems s x i n = .error f) :
    ∃ k < n, s.elem x (i + k) = none ∧ f = .unwrittenElement x (i + k) := by
  obtain ⟨k, hk, e⟩ := collect_eq_error h
  exact ⟨k, hk, (readElem_eq_error_iff ..).1 e⟩

@[simp] theorem onOperands_ok (x : α) (result : α → State) : onOperands (.ok x) result = .next (result x) := rfl

@[simp] theorem onOperands_error (f : Fault) (result : α → State) :
    onOperands (.error f) result = .fault f := rfl

/-- All that ending a command can do: the next state computed from operands that were read, or the fault of reading them. -/
theorem onOperands_eq_next_iff (e : Except Fault α) (result : α → State) (t : State) :
    onOperands e result = .next t ↔ ∃ x, e = .ok x ∧ result x = t := by
  cases e <;> simp [onOperands]

theorem onOperands_eq_fault_iff (e : Except Fault α) (result : α → State) (f : Fault) :
    onOperands e result = .fault f ↔ e = .error f := by
  cases e <;> simp [onOperands]

@[simp] theorem onOperands_ne_refused (e : Except Fault α) (result : α → State) (r : Refusal) :
    onOperands e result ≠ .refused r := by
  cases e <;> simp [onOperands]

/-- A shape is valid exactly when its counts and their product fit the capacity (10_state.md R28). -/
theorem Shape.valid_iff (n : Nat) (sh : Shape) :
    sh.valid n = true ↔ sh.rows.toNat ≤ n ∧ sh.cols.toNat ≤ n ∧ sh.rows.toNat * sh.cols.toNat ≤ n := by
  simp only [Shape.valid, Bool.and_eq_true, decide_eq_true_eq, and_assoc]
  rfl

/-- Shapes conform exactly as 43_matrix.md R151 says. -/
theorem conform_iff (a b : Shape) : conform a b = true ↔ a.rows = b.rows ∧ (a.rows = 0 ∨ a.cols = b.cols) := by
  simp [conform]

/-- Conforming shapes hold equally many elements. -/
theorem count_eq_of_conform {a b : Shape} (h : conform a b = true) : a.count = b.count := by
  obtain ⟨hr, hz | hc⟩ := (conform_iff a b).1 h
  · simp [Shape.count, ← hr, hz]
  · simp [Shape.count, hr, hc]

/-- The shape a command builds from counts that fit 12 bits holds those counts. -/
theorem Shape.ofCounts_count {r c : Nat} (hr : r < 4096) (hc : c < 4096) : (Shape.ofCounts r c).count = r * c := by
  simp [Shape.count, Shape.ofCounts, Nat.mod_eq_of_lt hr, Nat.mod_eq_of_lt hc]

end Sys2Proof.Machine
end

