-- ==== Sys2Proof/Laws/State.lean ====
section
/-! SUPPORT. One lemma per field per update of State, so that no later proof unfolds a record update: an update's own field holds
what was written, and every other field is untouched. -/

namespace Sys2Proof.Machine

variable (s : State)

/-! The generic accessors at each buffer. -/

@[simp] theorem State.shape_a : s.shape .a = s.shapeA := rfl
@[simp] theorem State.shape_b : s.shape .b = s.shapeB := rfl
@[simp] theorem State.shape_t : s.shape .t = s.shapeT := rfl
@[simp] theorem State.shape_r : s.shape .r = s.shapeR := rfl
@[simp] theorem State.buf_a : s.buf .a = s.bufA := rfl
@[simp] theorem State.buf_b : s.buf .b = s.bufB := rfl
@[simp] theorem State.buf_t : s.buf .t = s.bufT := rfl
@[simp] theorem State.buf_r : s.buf .r = s.bufR := rfl

/-! `setGmr` -/

@[simp] theorem State.setGmr_ecode (p : Byte) : (s.setGmr p).ecode = s.ecode := rfl
@[simp] theorem State.setGmr_err (p : Byte) : (s.setGmr p).err = s.err := rfl
@[simp] theorem State.setGmr_gmr (p : Byte) : (s.setGmr p).gmr = p := rfl
@[simp] theorem State.setGmr_shapeA (p : Byte) : (s.setGmr p).shapeA = s.shapeA := rfl
@[simp] theorem State.setGmr_shapeB (p : Byte) : (s.setGmr p).shapeB = s.shapeB := rfl
@[simp] theorem State.setGmr_shapeT (p : Byte) : (s.setGmr p).shapeT = s.shapeT := rfl
@[simp] theorem State.setGmr_shapeR (p : Byte) : (s.setGmr p).shapeR = s.shapeR := rfl
@[simp] theorem State.setGmr_bufA (p : Byte) : (s.setGmr p).bufA = s.bufA := rfl
@[simp] theorem State.setGmr_bufB (p : Byte) : (s.setGmr p).bufB = s.bufB := rfl
@[simp] theorem State.setGmr_bufT (p : Byte) : (s.setGmr p).bufT = s.bufT := rfl
@[simp] theorem State.setGmr_bufR (p : Byte) : (s.setGmr p).bufR = s.bufR := rfl
@[simp] theorem State.setGmr_cfg (p : Byte) : (s.setGmr p).cfg = s.cfg := rfl
@[simp] theorem State.setGmr_pending (p : Byte) : (s.setGmr p).pending = s.pending := rfl
@[simp] theorem State.setGmr_observed (p : Byte) : (s.setGmr p).observed = s.observed := rfl

/-! `succeed` -/

@[simp] theorem State.succeed_ecode : (s.succeed).ecode = 0 := rfl
@[simp] theorem State.succeed_err : (s.succeed).err = s.err := rfl
@[simp] theorem State.succeed_gmr : (s.succeed).gmr = s.gmr := rfl
@[simp] theorem State.succeed_shapeA : (s.succeed).shapeA = s.shapeA := rfl
@[simp] theorem State.succeed_shapeB : (s.succeed).shapeB = s.shapeB := rfl
@[simp] theorem State.succeed_shapeT : (s.succeed).shapeT = s.shapeT := rfl
@[simp] theorem State.succeed_shapeR : (s.succeed).shapeR = s.shapeR := rfl
@[simp] theorem State.succeed_bufA : (s.succeed).bufA = s.bufA := rfl
@[simp] theorem State.succeed_bufB : (s.succeed).bufB = s.bufB := rfl
@[simp] theorem State.succeed_bufT : (s.succeed).bufT = s.bufT := rfl
@[simp] theorem State.succeed_bufR : (s.succeed).bufR = s.bufR := rfl
@[simp] theorem State.succeed_cfg : (s.succeed).cfg = s.cfg := rfl
@[simp] theorem State.succeed_pending : (s.succeed).pending = s.pending := rfl
@[simp] theorem State.succeed_observed : (s.succeed).observed = s.observed := rfl

/-! `fail` -/

@[simp] theorem State.fail_ecode (e : CommandError) : (s.fail e).ecode = e.code := rfl
@[simp] theorem State.fail_err (e : CommandError) : (s.fail e).err = true := rfl
@[simp] theorem State.fail_gmr (e : CommandError) : (s.fail e).gmr = s.gmr := rfl
@[simp] theorem State.fail_shapeA (e : CommandError) : (s.fail e).shapeA = s.shapeA := rfl
@[simp] theorem State.fail_shapeB (e : CommandError) : (s.fail e).shapeB = s.shapeB := rfl
@[simp] theorem State.fail_shapeT (e : CommandError) : (s.fail e).shapeT = s.shapeT := rfl
@[simp] theorem State.fail_shapeR (e : CommandError) : (s.fail e).shapeR = s.shapeR := rfl
@[simp] theorem State.fail_bufA (e : CommandError) : (s.fail e).bufA = s.bufA := rfl
@[simp] theorem State.fail_bufB (e : CommandError) : (s.fail e).bufB = s.bufB := rfl
@[simp] theorem State.fail_bufT (e : CommandError) : (s.fail e).bufT = s.bufT := rfl
@[simp] theorem State.fail_bufR (e : CommandError) : (s.fail e).bufR = s.bufR := rfl
@[simp] theorem State.fail_cfg (e : CommandError) : (s.fail e).cfg = s.cfg := rfl
@[simp] theorem State.fail_pending (e : CommandError) : (s.fail e).pending = s.pending := rfl
@[simp] theorem State.fail_observed (e : CommandError) : (s.fail e).observed = s.observed := rfl

/-! `observe` -/

@[simp] theorem State.observe_ecode (v : Word) : (s.observe v).ecode = s.ecode := rfl
@[simp] theorem State.observe_err (v : Word) : (s.observe v).err = s.err := rfl
@[simp] theorem State.observe_gmr (v : Word) : (s.observe v).gmr = s.gmr := rfl
@[simp] theorem State.observe_shapeA (v : Word) : (s.observe v).shapeA = s.shapeA := rfl
@[simp] theorem State.observe_shapeB (v : Word) : (s.observe v).shapeB = s.shapeB := rfl
@[simp] theorem State.observe_shapeT (v : Word) : (s.observe v).shapeT = s.shapeT := rfl
@[simp] theorem State.observe_shapeR (v : Word) : (s.observe v).shapeR = s.shapeR := rfl
@[simp] theorem State.observe_bufA (v : Word) : (s.observe v).bufA = s.bufA := rfl
@[simp] theorem State.observe_bufB (v : Word) : (s.observe v).bufB = s.bufB := rfl
@[simp] theorem State.observe_bufT (v : Word) : (s.observe v).bufT = s.bufT := rfl
@[simp] theorem State.observe_bufR (v : Word) : (s.observe v).bufR = s.bufR := rfl
@[simp] theorem State.observe_cfg (v : Word) : (s.observe v).cfg = s.cfg := rfl
@[simp] theorem State.observe_pending (v : Word) : (s.observe v).pending = s.pending := rfl
@[simp] theorem State.observe_observed (v : Word) : (s.observe v).observed = s.observed ++ [v] := rfl

/-! `resetBlock` -/

@[simp] theorem State.resetBlock_ecode : (s.resetBlock).ecode = 0 := rfl
@[simp] theorem State.resetBlock_err : (s.resetBlock).err = false := rfl
@[simp] theorem State.resetBlock_gmr : (s.resetBlock).gmr = 0 := rfl
@[simp] theorem State.resetBlock_shapeA : (s.resetBlock).shapeA = Shape.zero := rfl
@[simp] theorem State.resetBlock_shapeB : (s.resetBlock).shapeB = Shape.zero := rfl
@[simp] theorem State.resetBlock_shapeT : (s.resetBlock).shapeT = Shape.zero := rfl
@[simp] theorem State.resetBlock_shapeR : (s.resetBlock).shapeR = Shape.zero := rfl
@[simp] theorem State.resetBlock_bufA : (s.resetBlock).bufA = [] := rfl
@[simp] theorem State.resetBlock_bufB : (s.resetBlock).bufB = [] := rfl
@[simp] theorem State.resetBlock_bufT : (s.resetBlock).bufT = [] := rfl
@[simp] theorem State.resetBlock_bufR : (s.resetBlock).bufR = [] := rfl
@[simp] theorem State.resetBlock_cfg : (s.resetBlock).cfg = s.cfg := rfl
@[simp] theorem State.resetBlock_pending : (s.resetBlock).pending = s.pending := rfl
@[simp] theorem State.resetBlock_observed : (s.resetBlock).observed = s.observed := rfl

/-! `setShape` -/

@[simp] theorem State.setShape_ecode (x : Buffer) (sh : Shape) : (s.setShape x sh).ecode = s.ecode := by cases x <;> rfl
@[simp] theorem State.setShape_err (x : Buffer) (sh : Shape) : (s.setShape x sh).err = s.err := by cases x <;> rfl
@[simp] theorem State.setShape_gmr (x : Buffer) (sh : Shape) : (s.setShape x sh).gmr = s.gmr := by cases x <;> rfl
@[simp] theorem State.setShape_a_shapeA (sh : Shape) : (s.setShape .a sh).shapeA = sh := rfl
@[simp] theorem State.setShape_b_shapeA (sh : Shape) : (s.setShape .b sh).shapeA = s.shapeA := rfl
@[simp] theorem State.setShape_t_shapeA (sh : Shape) : (s.setShape .t sh).shapeA = s.shapeA := rfl
@[simp] theorem State.setShape_r_shapeA (sh : Shape) : (s.setShape .r sh).shapeA = s.shapeA := rfl
@[simp] theorem State.setShape_a_shapeB (sh : Shape) : (s.setShape .a sh).shapeB = s.shapeB := rfl
@[simp] theorem State.setShape_b_shapeB (sh : Shape) : (s.setShape .b sh).shapeB = sh := rfl
@[simp] theorem State.setShape_t_shapeB (sh : Shape) : (s.setShape .t sh).shapeB = s.shapeB := rfl
@[simp] theorem State.setShape_r_shapeB (sh : Shape) : (s.setShape .r sh).shapeB = s.shapeB := rfl
@[simp] theorem State.setShape_a_shapeT (sh : Shape) : (s.setShape .a sh).shapeT = s.shapeT := rfl
@[simp] theorem State.setShape_b_shapeT (sh : Shape) : (s.setShape .b sh).shapeT = s.shapeT := rfl
@[simp] theorem State.setShape_t_shapeT (sh : Shape) : (s.setShape .t sh).shapeT = sh := rfl
@[simp] theorem State.setShape_r_shapeT (sh : Shape) : (s.setShape .r sh).shapeT = s.shapeT := rfl
@[simp] theorem State.setShape_a_shapeR (sh : Shape) : (s.setShape .a sh).shapeR = s.shapeR := rfl
@[simp] theorem State.setShape_b_shapeR (sh : Shape) : (s.setShape .b sh).shapeR = s.shapeR := rfl
@[simp] theorem State.setShape_t_shapeR (sh : Shape) : (s.setShape .t sh).shapeR = s.shapeR := rfl
@[simp] theorem State.setShape_r_shapeR (sh : Shape) : (s.setShape .r sh).shapeR = sh := rfl
@[simp] theorem State.setShape_bufA (x : Buffer) (sh : Shape) : (s.setShape x sh).bufA = s.bufA := by cases x <;> rfl
@[simp] theorem State.setShape_bufB (x : Buffer) (sh : Shape) : (s.setShape x sh).bufB = s.bufB := by cases x <;> rfl
@[simp] theorem State.setShape_bufT (x : Buffer) (sh : Shape) : (s.setShape x sh).bufT = s.bufT := by cases x <;> rfl
@[simp] theorem State.setShape_bufR (x : Buffer) (sh : Shape) : (s.setShape x sh).bufR = s.bufR := by cases x <;> rfl
@[simp] theorem State.setShape_cfg (x : Buffer) (sh : Shape) : (s.setShape x sh).cfg = s.cfg := by cases x <;> rfl
@[simp] theorem State.setShape_pending (x : Buffer) (sh : Shape) : (s.setShape x sh).pending = s.pending := by cases x <;> rfl
@[simp] theorem State.setShape_observed (x : Buffer) (sh : Shape) : (s.setShape x sh).observed = s.observed := by cases x <;> rfl

/-! `setBuf` -/

@[simp] theorem State.setBuf_ecode (x : Buffer) (m : Memory (Buffer.width x)) : (s.setBuf x m).ecode = s.ecode := by cases x <;> rfl
@[simp] theorem State.setBuf_err (x : Buffer) (m : Memory (Buffer.width x)) : (s.setBuf x m).err = s.err := by cases x <;> rfl
@[simp] theorem State.setBuf_gmr (x : Buffer) (m : Memory (Buffer.width x)) : (s.setBuf x m).gmr = s.gmr := by cases x <;> rfl
@[simp] theorem State.setBuf_shapeA (x : Buffer) (m : Memory (Buffer.width x)) : (s.setBuf x m).shapeA = s.shapeA := by cases x <;> rfl
@[simp] theorem State.setBuf_shapeB (x : Buffer) (m : Memory (Buffer.width x)) : (s.setBuf x m).shapeB = s.shapeB := by cases x <;> rfl
@[simp] theorem State.setBuf_shapeT (x : Buffer) (m : Memory (Buffer.width x)) : (s.setBuf x m).shapeT = s.shapeT := by cases x <;> rfl
@[simp] theorem State.setBuf_shapeR (x : Buffer) (m : Memory (Buffer.width x)) : (s.setBuf x m).shapeR = s.shapeR := by cases x <;> rfl
@[simp] theorem State.setBuf_a_bufA (m : Memory (Buffer.width .a)) : (s.setBuf .a m).bufA = m := rfl
@[simp] theorem State.setBuf_b_bufA (m : Memory (Buffer.width .b)) : (s.setBuf .b m).bufA = s.bufA := rfl
@[simp] theorem State.setBuf_t_bufA (m : Memory (Buffer.width .t)) : (s.setBuf .t m).bufA = s.bufA := rfl
@[simp] theorem State.setBuf_r_bufA (m : Memory (Buffer.width .r)) : (s.setBuf .r m).bufA = s.bufA := rfl
@[simp] theorem State.setBuf_a_bufB (m : Memory (Buffer.width .a)) : (s.setBuf .a m).bufB = s.bufB := rfl
@[simp] theorem State.setBuf_b_bufB (m : Memory (Buffer.width .b)) : (s.setBuf .b m).bufB = m := rfl
@[simp] theorem State.setBuf_t_bufB (m : Memory (Buffer.width .t)) : (s.setBuf .t m).bufB = s.bufB := rfl
@[simp] theorem State.setBuf_r_bufB (m : Memory (Buffer.width .r)) : (s.setBuf .r m).bufB = s.bufB := rfl
@[simp] theorem State.setBuf_a_bufT (m : Memory (Buffer.width .a)) : (s.setBuf .a m).bufT = s.bufT := rfl
@[simp] theorem State.setBuf_b_bufT (m : Memory (Buffer.width .b)) : (s.setBuf .b m).bufT = s.bufT := rfl
@[simp] theorem State.setBuf_t_bufT (m : Memory (Buffer.width .t)) : (s.setBuf .t m).bufT = m := rfl
@[simp] theorem State.setBuf_r_bufT (m : Memory (Buffer.width .r)) : (s.setBuf .r m).bufT = s.bufT := rfl
@[simp] theorem State.setBuf_a_bufR (m : Memory (Buffer.width .a)) : (s.setBuf .a m).bufR = s.bufR := rfl
@[simp] theorem State.setBuf_b_bufR (m : Memory (Buffer.width .b)) : (s.setBuf .b m).bufR = s.bufR := rfl
@[simp] theorem State.setBuf_t_bufR (m : Memory (Buffer.width .t)) : (s.setBuf .t m).bufR = s.bufR := rfl
@[simp] theorem State.setBuf_r_bufR (m : Memory (Buffer.width .r)) : (s.setBuf .r m).bufR = m := rfl
@[simp] theorem State.setBuf_cfg (x : Buffer) (m : Memory (Buffer.width x)) : (s.setBuf x m).cfg = s.cfg := by cases x <;> rfl
@[simp] theorem State.setBuf_pending (x : Buffer) (m : Memory (Buffer.width x)) : (s.setBuf x m).pending = s.pending := by cases x <;> rfl
@[simp] theorem State.setBuf_observed (x : Buffer) (m : Memory (Buffer.width x)) : (s.setBuf x m).observed = s.observed := by cases x <;> rfl

/-! `writeElems` -/

@[simp] theorem State.writeElems_ecode (x : Buffer) (i : Nat) (vs : List (BitVec (Buffer.width x))) : (s.writeElems x i vs).ecode = s.ecode := by cases x <;> rfl
@[simp] theorem State.writeElems_err (x : Buffer) (i : Nat) (vs : List (BitVec (Buffer.width x))) : (s.writeElems x i vs).err = s.err := by cases x <;> rfl
@[simp] theorem State.writeElems_gmr (x : Buffer) (i : Nat) (vs : List (BitVec (Buffer.width x))) : (s.writeElems x i vs).gmr = s.gmr := by cases x <;> rfl
@[simp] theorem State.writeElems_shapeA (x : Buffer) (i : Nat) (vs : List (BitVec (Buffer.width x))) : (s.writeElems x i vs).shapeA = s.shapeA := by cases x <;> rfl
@[simp] theorem State.writeElems_shapeB (x : Buffer) (i : Nat) (vs : List (BitVec (Buffer.width x))) : (s.writeElems x i vs).shapeB = s.shapeB := by cases x <;> rfl
@[simp] theorem State.writeElems_shapeT (x : Buffer) (i : Nat) (vs : List (BitVec (Buffer.width x))) : (s.writeElems x i vs).shapeT = s.shapeT := by cases x <;> rfl
@[simp] theorem State.writeElems_shapeR (x : Buffer) (i : Nat) (vs : List (BitVec (Buffer.width x))) : (s.writeElems x i vs).shapeR = s.shapeR := by cases x <;> rfl
@[simp] theorem State.writeElems_a_bufA (i : Nat) (vs : List (BitVec (Buffer.width .a))) : (s.writeElems .a i vs).bufA = Memory.writeFrom s.bufA i vs := rfl
@[simp] theorem State.writeElems_b_bufA (i : Nat) (vs : List (BitVec (Buffer.width .b))) : (s.writeElems .b i vs).bufA = s.bufA := rfl
@[simp] theorem State.writeElems_t_bufA (i : Nat) (vs : List (BitVec (Buffer.width .t))) : (s.writeElems .t i vs).bufA = s.bufA := rfl
@[simp] theorem State.writeElems_r_bufA (i : Nat) (vs : List (BitVec (Buffer.width .r))) : (s.writeElems .r i vs).bufA = s.bufA := rfl
@[simp] theorem State.writeElems_a_bufB (i : Nat) (vs : List (BitVec (Buffer.width .a))) : (s.writeElems .a i vs).bufB = s.bufB := rfl
@[simp] theorem State.writeElems_b_bufB (i : Nat) (vs : List (BitVec (Buffer.width .b))) : (s.writeElems .b i vs).bufB = Memory.writeFrom s.bufB i vs := rfl
@[simp] theorem State.writeElems_t_bufB (i : Nat) (vs : List (BitVec (Buffer.width .t))) : (s.writeElems .t i vs).bufB = s.bufB := rfl
@[simp] theorem State.writeElems_r_bufB (i : Nat) (vs : List (BitVec (Buffer.width .r))) : (s.writeElems .r i vs).bufB = s.bufB := rfl
@[simp] theorem State.writeElems_a_bufT (i : Nat) (vs : List (BitVec (Buffer.width .a))) : (s.writeElems .a i vs).bufT = s.bufT := rfl
@[simp] theorem State.writeElems_b_bufT (i : Nat) (vs : List (BitVec (Buffer.width .b))) : (s.writeElems .b i vs).bufT = s.bufT := rfl
@[simp] theorem State.writeElems_t_bufT (i : Nat) (vs : List (BitVec (Buffer.width .t))) : (s.writeElems .t i vs).bufT = Memory.writeFrom s.bufT i vs := rfl
@[simp] theorem State.writeElems_r_bufT (i : Nat) (vs : List (BitVec (Buffer.width .r))) : (s.writeElems .r i vs).bufT = s.bufT := rfl
@[simp] theorem State.writeElems_a_bufR (i : Nat) (vs : List (BitVec (Buffer.width .a))) : (s.writeElems .a i vs).bufR = s.bufR := rfl
@[simp] theorem State.writeElems_b_bufR (i : Nat) (vs : List (BitVec (Buffer.width .b))) : (s.writeElems .b i vs).bufR = s.bufR := rfl
@[simp] theorem State.writeElems_t_bufR (i : Nat) (vs : List (BitVec (Buffer.width .t))) : (s.writeElems .t i vs).bufR = s.bufR := rfl
@[simp] theorem State.writeElems_r_bufR (i : Nat) (vs : List (BitVec (Buffer.width .r))) : (s.writeElems .r i vs).bufR = Memory.writeFrom s.bufR i vs := rfl
@[simp] theorem State.writeElems_cfg (x : Buffer) (i : Nat) (vs : List (BitVec (Buffer.width x))) : (s.writeElems x i vs).cfg = s.cfg := by cases x <;> rfl
@[simp] theorem State.writeElems_pending (x : Buffer) (i : Nat) (vs : List (BitVec (Buffer.width x))) : (s.writeElems x i vs).pending = s.pending := by cases x <;> rfl
@[simp] theorem State.writeElems_observed (x : Buffer) (i : Nat) (vs : List (BitVec (Buffer.width x))) : (s.writeElems x i vs).observed = s.observed := by cases x <;> rfl

/-! `setElem` -/

@[simp] theorem State.setElem_ecode (x : Buffer) (i : Nat) (v : BitVec (Buffer.width x)) : (s.setElem x i v).ecode = s.ecode := by cases x <;> rfl
@[simp] theorem State.setElem_err (x : Buffer) (i : Nat) (v : BitVec (Buffer.width x)) : (s.setElem x i v).err = s.err := by cases x <;> rfl
@[simp] theorem State.setElem_gmr (x : Buffer) (i : Nat) (v : BitVec (Buffer.width x)) : (s.setElem x i v).gmr = s.gmr := by cases x <;> rfl
@[simp] theorem State.setElem_shapeA (x : Buffer) (i : Nat) (v : BitVec (Buffer.width x)) : (s.setElem x i v).shapeA = s.shapeA := by cases x <;> rfl
@[simp] theorem State.setElem_shapeB (x : Buffer) (i : Nat) (v : BitVec (Buffer.width x)) : (s.setElem x i v).shapeB = s.shapeB := by cases x <;> rfl
@[simp] theorem State.setElem_shapeT (x : Buffer) (i : Nat) (v : BitVec (Buffer.width x)) : (s.setElem x i v).shapeT = s.shapeT := by cases x <;> rfl
@[simp] theorem State.setElem_shapeR (x : Buffer) (i : Nat) (v : BitVec (Buffer.width x)) : (s.setElem x i v).shapeR = s.shapeR := by cases x <;> rfl
@[simp] theorem State.setElem_a_bufA (i : Nat) (v : BitVec (Buffer.width .a)) : (s.setElem .a i v).bufA = Memory.write s.bufA i v := rfl
@[simp] theorem State.setElem_b_bufA (i : Nat) (v : BitVec (Buffer.width .b)) : (s.setElem .b i v).bufA = s.bufA := rfl
@[simp] theorem State.setElem_t_bufA (i : Nat) (v : BitVec (Buffer.width .t)) : (s.setElem .t i v).bufA = s.bufA := rfl
@[simp] theorem State.setElem_r_bufA (i : Nat) (v : BitVec (Buffer.width .r)) : (s.setElem .r i v).bufA = s.bufA := rfl
@[simp] theorem State.setElem_a_bufB (i : Nat) (v : BitVec (Buffer.width .a)) : (s.setElem .a i v).bufB = s.bufB := rfl
@[simp] theorem State.setElem_b_bufB (i : Nat) (v : BitVec (Buffer.width .b)) : (s.setElem .b i v).bufB = Memory.write s.bufB i v := rfl
@[simp] theorem State.setElem_t_bufB (i : Nat) (v : BitVec (Buffer.width .t)) : (s.setElem .t i v).bufB = s.bufB := rfl
@[simp] theorem State.setElem_r_bufB (i : Nat) (v : BitVec (Buffer.width .r)) : (s.setElem .r i v).bufB = s.bufB := rfl
@[simp] theorem State.setElem_a_bufT (i : Nat) (v : BitVec (Buffer.width .a)) : (s.setElem .a i v).bufT = s.bufT := rfl
@[simp] theorem State.setElem_b_bufT (i : Nat) (v : BitVec (Buffer.width .b)) : (s.setElem .b i v).bufT = s.bufT := rfl
@[simp] theorem State.setElem_t_bufT (i : Nat) (v : BitVec (Buffer.width .t)) : (s.setElem .t i v).bufT = Memory.write s.bufT i v := rfl
@[simp] theorem State.setElem_r_bufT (i : Nat) (v : BitVec (Buffer.width .r)) : (s.setElem .r i v).bufT = s.bufT := rfl
@[simp] theorem State.setElem_a_bufR (i : Nat) (v : BitVec (Buffer.width .a)) : (s.setElem .a i v).bufR = s.bufR := rfl
@[simp] theorem State.setElem_b_bufR (i : Nat) (v : BitVec (Buffer.width .b)) : (s.setElem .b i v).bufR = s.bufR := rfl
@[simp] theorem State.setElem_t_bufR (i : Nat) (v : BitVec (Buffer.width .t)) : (s.setElem .t i v).bufR = s.bufR := rfl
@[simp] theorem State.setElem_r_bufR (i : Nat) (v : BitVec (Buffer.width .r)) : (s.setElem .r i v).bufR = Memory.write s.bufR i v := rfl
@[simp] theorem State.setElem_cfg (x : Buffer) (i : Nat) (v : BitVec (Buffer.width x)) : (s.setElem x i v).cfg = s.cfg := by cases x <;> rfl
@[simp] theorem State.setElem_pending (x : Buffer) (i : Nat) (v : BitVec (Buffer.width x)) : (s.setElem x i v).pending = s.pending := by cases x <;> rfl
@[simp] theorem State.setElem_observed (x : Buffer) (i : Nat) (v : BitVec (Buffer.width x)) : (s.setElem x i v).observed = s.observed := by cases x <;> rfl

/-! `writeStatus` -/

@[simp] theorem State.writeStatus_ecode (v : Word) : (s.writeStatus v).ecode = s.ecode := by
  unfold State.writeStatus; split <;> rfl
@[simp] theorem State.writeStatus_err (v : Word) : (s.writeStatus v).err = (s.err && !v.getLsbD 8) := by
  unfold State.writeStatus; cases v.getLsbD 8 <;> simp
@[simp] theorem State.writeStatus_gmr (v : Word) : (s.writeStatus v).gmr = s.gmr := by
  unfold State.writeStatus; split <;> rfl
@[simp] theorem State.writeStatus_shapeA (v : Word) : (s.writeStatus v).shapeA = s.shapeA := by
  unfold State.writeStatus; split <;> rfl
@[simp] theorem State.writeStatus_shapeB (v : Word) : (s.writeStatus v).shapeB = s.shapeB := by
  unfold State.writeStatus; split <;> rfl
@[simp] theorem State.writeStatus_shapeT (v : Word) : (s.writeStatus v).shapeT = s.shapeT := by
  unfold State.writeStatus; split <;> rfl
@[simp] theorem State.writeStatus_shapeR (v : Word) : (s.writeStatus v).shapeR = s.shapeR := by
  unfold State.writeStatus; split <;> rfl
@[simp] theorem State.writeStatus_bufA (v : Word) : (s.writeStatus v).bufA = s.bufA := by
  unfold State.writeStatus; split <;> rfl
@[simp] theorem State.writeStatus_bufB (v : Word) : (s.writeStatus v).bufB = s.bufB := by
  unfold State.writeStatus; split <;> rfl
@[simp] theorem State.writeStatus_bufT (v : Word) : (s.writeStatus v).bufT = s.bufT := by
  unfold State.writeStatus; split <;> rfl
@[simp] theorem State.writeStatus_bufR (v : Word) : (s.writeStatus v).bufR = s.bufR := by
  unfold State.writeStatus; split <;> rfl
@[simp] theorem State.writeStatus_cfg (v : Word) : (s.writeStatus v).cfg = s.cfg := by
  unfold State.writeStatus; split <;> rfl
@[simp] theorem State.writeStatus_pending (v : Word) : (s.writeStatus v).pending = s.pending := by
  unfold State.writeStatus; split <;> rfl
@[simp] theorem State.writeStatus_observed (v : Word) : (s.writeStatus v).observed = s.observed := by
  unfold State.writeStatus; split <;> rfl

/-! The updates seen through the generic accessors. -/

@[simp] theorem State.shape_setShape (x y : Buffer) (sh : Shape) :
    (s.setShape x sh).shape y = if y = x then sh else s.shape y := by
  cases x <;> cases y <;> rfl

@[simp] theorem State.shape_setBuf (x y : Buffer) (m : Memory x.width) : (s.setBuf x m).shape y = s.shape y := by
  cases x <;> cases y <;> rfl

@[simp] theorem State.shape_writeElems (x y : Buffer) (i : Nat) (vs : List (BitVec x.width)) :
    (s.writeElems x i vs).shape y = s.shape y := by
  cases x <;> cases y <;> rfl

@[simp] theorem State.shape_setElem (x y : Buffer) (i : Nat) (v : BitVec x.width) :
    (s.setElem x i v).shape y = s.shape y := by
  cases x <;> cases y <;> rfl

@[simp] theorem State.buf_setShape (x y : Buffer) (sh : Shape) : (s.setShape x sh).buf y = s.buf y := by
  cases x <;> cases y <;> rfl

@[simp] theorem State.buf_setBuf_self (x : Buffer) (m : Memory x.width) : (s.setBuf x m).buf x = m := by
  cases x <;> rfl

theorem State.buf_setBuf_of_ne {x y : Buffer} (h : y ≠ x) (m : Memory x.width) : (s.setBuf x m).buf y = s.buf y := by
  cases x <;> cases y <;> first | rfl | exact absurd rfl h

@[simp] theorem State.buf_succeed (x : Buffer) : s.succeed.buf x = s.buf x := by cases x <;> rfl
@[simp] theorem State.buf_fail (x : Buffer) (e : CommandError) : (s.fail e).buf x = s.buf x := by cases x <;> rfl
@[simp] theorem State.buf_setGmr (x : Buffer) (p : Byte) : (s.setGmr p).buf x = s.buf x := by cases x <;> rfl
@[simp] theorem State.buf_observe (x : Buffer) (v : Word) : (s.observe v).buf x = s.buf x := by cases x <;> rfl
@[simp] theorem State.shape_succeed (x : Buffer) : s.succeed.shape x = s.shape x := by cases x <;> rfl
@[simp] theorem State.shape_fail (x : Buffer) (e : CommandError) : (s.fail e).shape x = s.shape x := by cases x <;> rfl
@[simp] theorem State.shape_setGmr (x : Buffer) (p : Byte) : (s.setGmr p).shape x = s.shape x := by cases x <;> rfl
@[simp] theorem State.shape_observe (x : Buffer) (v : Word) : (s.observe v).shape x = s.shape x := by cases x <;> rfl

@[simp] theorem State.elem_setShape (x y : Buffer) (sh : Shape) (i : Nat) : (s.setShape x sh).elem y i = s.elem y i := by
  simp [State.elem]
@[simp] theorem State.elem_succeed (x : Buffer) (i : Nat) : s.succeed.elem x i = s.elem x i := by simp [State.elem]
@[simp] theorem State.elem_fail (x : Buffer) (e : CommandError) (i : Nat) : (s.fail e).elem x i = s.elem x i := by
  simp [State.elem]
@[simp] theorem State.elem_setGmr (x : Buffer) (p : Byte) (i : Nat) : (s.setGmr p).elem x i = s.elem x i := by
  simp [State.elem]
@[simp] theorem State.elem_observe (x : Buffer) (v : Word) (i : Nat) : (s.observe v).elem x i = s.elem x i := by
  simp [State.elem]

/-! A state with other pending accesses. -/

@[simp] theorem State.shape_pending (x : Buffer) (es : List HostEvent) :
    ({ s with pending := es } : State).shape x = s.shape x := by cases x <;> rfl
@[simp] theorem State.buf_pending (x : Buffer) (es : List HostEvent) :
    ({ s with pending := es } : State).buf x = s.buf x := by cases x <;> rfl
@[simp] theorem State.elem_pending (x : Buffer) (es : List HostEvent) (i : Nat) :
    ({ s with pending := es } : State).elem x i = s.elem x i := by simp [State.elem]

@[simp] theorem State.withFetchWord_pending (nbits w : Nat) :
    (s.withFetchWord nbits w).pending = commandWrite s.cfg (BitVec.ofNat 32 (w % 2 ^ nbits)) :: s.pending := rfl
@[simp] theorem State.withFetchWord_cfg (nbits w : Nat) : (s.withFetchWord nbits w).cfg = s.cfg := rfl

end Sys2Proof.Machine
end

