-- ==== Sys2Proof/Laws/Bus.lean ====
section
/-! SUPPORT. What the address map answers, and everything an access, an event and a step can do. -/

namespace Sys2Proof.Machine

/-- An offset names a register exactly when it is that register's own offset. -/
theorem registerAt_eq_some {off : Nat} {loc : Target} (h : registerAt off = some loc) :
    off = loc.offset ∧ off % 4 = 0 ∧ off ≤ 0x01C := by
  unfold registerAt at h
  repeat' (split at h)
  all_goals first | (cases h; subst off; decide) | cases h

/-- An offset past the registers names none. -/
theorem registerAt_eq_none {off : Nat} (h : 0x01C < off) : registerAt off = none := by
  cases hr : registerAt off with
  | none => rfl
  | some loc => have := (registerAt_eq_some hr).2.2; omega

/-- An offset names element i of X exactly when it is WIN(X) + 4·i inside X's range and i is below X's element count. -/
theorem elementOf_eq_some_iff (c : Config) (x : Buffer) (off : Nat) (loc : Target) :
    elementOf c x off = some loc ↔
      ∃ i, loc = .elem x i ∧ off = windowOffset x + 4 * i ∧ off < windowEnd x ∧ i < x.capacity c := by
  unfold elementOf
  split
  · next h =>
    simp only [Option.some.injEq]
    constructor
    · rintro rfl
      have hw : windowOffset x % 4 = 0 := by cases x <;> rfl
      exact ⟨_, rfl, by omega, h.2.1, h.2.2.2⟩
    · rintro ⟨i, rfl, rfl, -, -⟩
      congr 1
      omega
  · next h =>
    simp only [reduceCtorEq, false_iff]
    rintro ⟨i, rfl, rfl, hlt, hi⟩
    have hw : windowOffset x % 4 = 0 := by cases x <;> rfl
    exact h ⟨by omega, hlt, by omega, by rwa [show (windowOffset x + 4 * i - windowOffset x) / 4 = i by omega]⟩

/-- What an access reaches: the width, the alignment and the window of R55 hold, and the offset decodes. -/
theorem admitted_eq_some_iff (c : Config) (addr n : Nat) (loc : Target) :
    admitted c addr n = some loc ↔
      (n = 4 ∧ addr % 4 = 0 ∧ c.base ≤ addr) ∧ decodeOffset c (addr - c.base) = some loc := by
  unfold admitted
  split <;> simp_all

/-- A read answers exactly the value of the target its access reaches. -/
theorem memRead_eq_ok_iff (s : State) (addr n : Nat) (v : Word) :
    memRead s addr n = .ok v ↔ ∃ loc, admitted s.cfg addr n = some loc ∧ readTarget s loc = .ok v := by
  unfold memRead
  cases admitted s.cfg addr n <;> simp

/-- A write goes on exactly when its access reaches a target and the target's write goes on. -/
theorem memWrite_eq_next_iff (s t : State) (addr n : Nat) (v : Word) :
    memWrite s addr n v = .next t ↔ ∃ loc, admitted s.cfg addr n = some loc ∧ writeTarget s v loc = .next t := by
  unfold memWrite
  cases admitted s.cfg addr n <;> simp

theorem execute_of_decode {w : Word} {i : Instr} (h : decode w = .ok i) (s : State) : execute w s = exec i s := by
  simp [execute, h]

theorem execute_of_reject {w : Word} {e : DecodeError} (h : decode w = .error e) (s : State) :
    execute w s = .next (s.fail .illegalCommand) := by
  simp [execute, h]

/-- All that a host read can do. -/
theorem perform_read_eq_next_iff (s t : State) (addr n : Nat) :
    perform (.read addr n) s = .next t ↔ ∃ v, memRead s addr n = .ok v ∧ t = s.observe v := by
  simp only [perform]
  cases memRead s addr n with
  | error f => simp
  | ok v => simp only [Host.Outcome.next.injEq, Except.ok.injEq, exists_eq_left', eq_comm]

@[simp] theorem perform_write (s : State) (addr n : Nat) (v : Word) :
    perform (.write addr n v) s = memWrite s addr n v := rfl

@[simp] theorem perform_reset (s : State) : perform .reset s = .next s.resetBlock := rfl

/-- A step with nothing pending, and a step with a first event pending. -/
theorem step_of_nil {s : State} (h : s.pending = []) : step s = .next s := by
  simp [step, h]

theorem step_of_cons {s : State} {e : HostEvent} {es : List HostEvent} (h : s.pending = e :: es) :
    step s = perform e { s with pending := es } := by
  simp [step, h]

@[simp] theorem performAll_nil (s : State) : performAll [] s = .next s := rfl

theorem performAll_cons_eq_next_iff (e : HostEvent) (es : List HostEvent) (s t : State) :
    performAll (e :: es) s = .next t ↔ ∃ u, perform e s = .next u ∧ performAll es u = .next t := by
  simp only [performAll]
  cases perform e s <;> simp

/-- A run of two lists of events is the run of the second from where the first ends. -/
theorem performAll_append_eq_next_iff (es fs : List HostEvent) (s t : State) :
    performAll (es ++ fs) s = .next t ↔ ∃ u, performAll es s = .next u ∧ performAll fs u = .next t := by
  induction es generalizing s with
  | nil => simp
  | cons e es ih =>
    simp only [List.cons_append, performAll_cons_eq_next_iff, ih]
    constructor
    · rintro ⟨u, hu, v, hv, ht⟩
      exact ⟨v, ⟨u, hu, hv⟩, ht⟩
    · rintro ⟨v, ⟨u, hu, hv⟩, ht⟩
      exact ⟨u, hu, v, hv, ht⟩

end Sys2Proof.Machine
end

