-- ==== Sys2Proof/Laws/Exec.lean ====
section
/-! SUPPORT. Everything each command can do, said once: the inversion of its next states and the fault it can end in. Later
proofs cite these instead of unfolding a meaning. -/

namespace Sys2Proof.Machine

variable {s t : State}

/-- GMUL has one outcome. -/
theorem execGmul_cases {a b : Byte} (h : execGmul a b s = .next t) : t = (s.setGmr (gmul a b)).succeed := by
  simpa [execGmul, eq_comm] using h

theorem execB2bits_cases (h : execB2bits s = .next t) :
    (s.shapeValid .a = false ∧ t = s.fail .shapeInvalid) ∨
    (s.shapeValid .a = true ∧ ∃ x, readElems s .a 0 (s.inUse .a) = .ok x ∧
      t = ((s.writeElems .t 0 (bytesToBits x)).setShape .t (Shape.ofCounts 1 (8 * s.inUse .a))).succeed) := by
  unfold execB2bits at h
  split at h
  · next hv =>
    obtain ⟨x, hx, rfl⟩ := (onOperands_eq_next_iff ..).1 h
    exact .inr ⟨hv, x, hx, rfl⟩
  · next hv => exact .inl ⟨by simpa using hv, by simpa [eq_comm] using h⟩

theorem execBits2b_cases (h : execBits2b s = .next t) :
    (s.shapeValid .t = false ∧ t = s.fail .shapeInvalid) ∨
    (s.shapeValid .t = true ∧ s.inUse .t % 8 ≠ 0 ∧ t = s.fail .alignment) ∨
    (s.shapeValid .t = true ∧ s.inUse .t % 8 = 0 ∧ ∃ x, readElems s .t 0 (s.inUse .t) = .ok x ∧
      t = ((s.writeElems .r 0 ((packGroups x).map fun y => y.setWidth 9)).setShape .r
        (Shape.ofCounts 1 (s.inUse .t / 8))).succeed) := by
  unfold execBits2b at h
  split at h
  · next hv =>
    split at h
    · next ha =>
      obtain ⟨x, hx, rfl⟩ := (onOperands_eq_next_iff ..).1 h
      exact .inr (.inr ⟨hv, ha, x, hx, rfl⟩)
    · next ha => exact .inr (.inl ⟨hv, ha, by simpa [eq_comm] using h⟩)
  · next hv => exact .inl ⟨by simpa using hv, by simpa [eq_comm] using h⟩

theorem execMbits_cases (h : execMbits s = .next t) :
    (s.shapeValid .a = false ∧ t = s.fail .shapeInvalid) ∨
    (s.shapeValid .a = true ∧
      ∃ rows, collect (readRow s .a s.shapeA.cols.toNat) 0 s.shapeA.rows.toNat = .ok rows ∧
      t = ((writeBitRows s.shapeA.cols.toNat s 0 rows).setShape .t
        (Shape.ofCounts s.shapeA.rows.toNat (8 * s.shapeA.cols.toNat))).succeed) := by
  unfold execMbits at h
  split at h
  · next hv =>
    obtain ⟨x, hx, rfl⟩ := (onOperands_eq_next_iff ..).1 h
    exact .inr ⟨hv, x, hx, rfl⟩
  · next hv => exact .inl ⟨by simpa using hv, by simpa [eq_comm] using h⟩

theorem execFlat_cases {x : Buffer} (h : execFlat x s = .next t) :
    (s.shapeValid x = false ∧ t = s.fail .shapeInvalid) ∨
    (s.shapeValid x = true ∧ t = (s.setShape x (Shape.ofCounts 1 (s.inUse x))).succeed) := by
  unfold execFlat at h
  split at h
  · next hv => exact .inr ⟨hv, by simpa [eq_comm] using h⟩
  · next hv => exact .inl ⟨by simpa using hv, by simpa [eq_comm] using h⟩

/-- MXOR and MSUM, each with its lane. -/
theorem matrixCommand_cases {lane : Byte → Byte → Sum} (h : matrixCommand lane s = .next t) :
    ((s.shapeValid .a && s.shapeValid .b) = false ∧ t = s.fail .shapeInvalid) ∨
    ((s.shapeValid .a && s.shapeValid .b) = true ∧ conform s.shapeA s.shapeB = false ∧ t = s.fail .shapeMismatch) ∨
    ((s.shapeValid .a && s.shapeValid .b) = true ∧ conform s.shapeA s.shapeB = true ∧
      ∃ y, collect (readLane lane s) 0 (s.inUse .a) = .ok y ∧
      t = ((s.writeElems .r 0 y).setShape .r s.shapeA).succeed) := by
  unfold matrixCommand at h
  split at h
  · next hv =>
    split at h
    · next hc =>
      obtain ⟨x, hx, rfl⟩ := (onOperands_eq_next_iff ..).1 h
      exact .inr (.inr ⟨hv, hc, x, hx, rfl⟩)
    · next hc => exact .inr (.inl ⟨hv, by simpa using hc, by simpa [eq_comm] using h⟩)
  · next hv => exact .inl ⟨by simpa using hv, by simpa [eq_comm] using h⟩

/-- A lane answers exactly when both its operands are written. -/
theorem readLane_eq_ok_iff (lane : Byte → Byte → Sum) (s : State) (k : Nat) (v : Sum) :
    readLane lane s k = .ok v ↔
      ∃ a b : Byte, s.elem .a k = some a ∧ s.elem .b k = some b ∧ v = lane a b := by
  unfold readLane readElem
  constructor
  · intro h
    cases ha : s.elem .a k <;> cases hb : s.elem .b k <;> simp [ha, hb] at h
    exact ⟨_, _, rfl, rfl, h.symm⟩
  · rintro ⟨a, b, ha, hb, rfl⟩
    simp [ha, hb]

/-- A faulting lane names the operand that is unwritten. -/
theorem readLane_eq_error {lane : Byte → Byte → Sum} {k : Nat} {f : Fault} (h : readLane lane s k = .error f) :
    (s.elem .a k = none ∧ f = .unwrittenElement .a k) ∨ (s.elem .b k = none ∧ f = .unwrittenElement .b k) := by
  unfold readLane readElem at h
  cases ha : s.elem .a k <;> cases hb : s.elem .b k <;> simp [ha, hb] at h <;> simp [h]

/-- The bits of a byte sequence: eight for each byte. -/
@[simp] theorem bytesToBits_length (x : List Byte) : (bytesToBits x).length = 8 * x.length := by
  induction x with
  | nil => rfl
  | cons v x ih => simp [bytesToBits, bits8, ih]; omega

/-- Writing bit rows touches T's elements only. -/
theorem writeBitRows_eq (c : Nat) (s : State) (i : Nat) (rows : List (List Byte)) :
    writeBitRows c s i rows = { s with bufT := (writeBitRows c s i rows).bufT } := by
  induction rows generalizing s i with
  | nil => rfl
  | cons row rows ih => rw [writeBitRows, ih]; rfl

end Sys2Proof.Machine
end

