-- ==== Sys2Proof/Laws/PerInstr.lean ====
section
/-! SUPPORT. Facts about every command as syntax, one lemma per constructor of Instr. -/

namespace Sys2Proof.Laws.RowMatch

/-- The command's encoding matches its own row of the opcode map, and its OPCODE field is that row's (30_encoding.md R84,
R87). -/
def Statement (i : Instr) : Prop :=
  ∃ row ∈ opMap, row.op = i.op ∧ encode i &&& row.mask = row.matchWord ∧ opcodeField (encode i) = row.opcode

theorem gmul (a b : Byte) : Statement (.gmul a b) := by
  refine ⟨⟨.gmul, 0x01, 0x01000000, 0xFFFF0000⟩, by decide, rfl, ?_, ?_⟩
  · apply BitVec.eq_of_getLsbD_eq
    intro k hk
    have hz : ((k < 8) ∨ (8 ≤ k ∧ k < 16) ∨ (16 ≤ k ∧ k < 32)) := by omega
    simp only [encode, BitVec.getLsbD_and, BitVec.getLsbD_or, BitVec.getLsbD_shiftLeft, BitVec.getLsbD_setWidth]
    rcases hz with h | h | h
    · interval_cases k <;> simp
    · interval_cases k <;> simp
    · have ha : a.getLsbD (k - 8) = false := BitVec.getLsbD_of_ge _ _ (by omega)
      have hb : b.getLsbD k = false := BitVec.getLsbD_of_ge _ _ (by omega)
      rw [ha, hb]
      interval_cases k <;> simp
  · apply BitVec.eq_of_getLsbD_eq
    intro k hk
    have ha : a.getLsbD (24 + k - 8) = false := BitVec.getLsbD_of_ge _ _ (by omega)
    have hb : b.getLsbD (24 + k) = false := BitVec.getLsbD_of_ge _ _ (by omega)
    simp only [opcodeField, encode, BitVec.getLsbD_extractLsb', BitVec.getLsbD_or, BitVec.getLsbD_shiftLeft,
      BitVec.getLsbD_setWidth, ha, hb]
    interval_cases k <;> simp

theorem b2bits : Statement .b2bits := ⟨⟨.b2bits, 0x02, 0x02000000, 0xFFFFFFFF⟩, by decide⟩

theorem bits2b : Statement .bits2b := ⟨⟨.bits2b, 0x03, 0x03000000, 0xFFFFFFFF⟩, by decide⟩

theorem mbits : Statement .mbits := ⟨⟨.mbits, 0x04, 0x04000000, 0xFFFFFFFF⟩, by decide⟩

theorem flat (x : Buffer) : Statement (.flat x) := by
  cases x <;> exact ⟨⟨.flat, 0x05, 0x05000000, 0xFFFCFFFF⟩, by decide⟩

theorem mxor : Statement .mxor := ⟨⟨.mxor, 0x06, 0x06000000, 0xFFFFFFFF⟩, by decide⟩

theorem msum : Statement .msum := ⟨⟨.msum, 0x07, 0x07000000, 0xFFFFFFFF⟩, by decide⟩

end Sys2Proof.Laws.RowMatch

namespace Sys2Proof

/-- No word matches two rows of the opcode map: two rows differ under the bits both fix (30_encoding.md R84). -/
theorem opMap_disjoint :
    opMap.Pairwise fun p q => p.matchWord &&& (p.mask &&& q.mask) ≠ q.matchWord &&& (p.mask &&& q.mask) := by
  decide

/-- Each row's match word lies under its mask, and its top byte is its opcode. -/
theorem opMap_consistent :
    ∀ row ∈ opMap, row.matchWord &&& row.mask = row.matchWord ∧ opcodeField row.matchWord = row.opcode := by
  decide

end Sys2Proof
end

