-- ==== Sys2Proof/Tests/Slice0.lean ====
section
/-! SUPPORT. The model's own tests. Every expected value is copied from a table of spec/95_test_vectors.md (its section stands
in the test's comment) or from the rule named; each test is one step or one function value. The witnesses of the statements'
hypotheses stand at the end. -/

namespace Sys2Proof.Machine

/-- The next state of an outcome, if it has one. -/
def nextOf : Host.Outcome State Fault Refusal → Option State
  | .next t => some t
  | .fault _ => none
  | .refused _ => none

/-- The fault of an outcome, if it is one. -/
def faultOf : Host.Outcome State Fault Refusal → Option Fault
  | .next _ => none
  | .fault f => some f
  | .refused _ => none

/-- A small machine: reset with CAP = 256, the shapes given as (rows, columns), the elements as lists from index 0. -/
def machineOf (shA shB shT : Nat × Nat) (a b : List Byte) (t : List Bit) : State :=
  { State.reset with
    shapeA := Shape.ofCounts shA.1 shA.2
    shapeB := Shape.ofCounts shB.1 shB.2
    shapeT := Shape.ofCounts shT.1 shT.2
    bufA := Memory.writeFrom [] 0 a
    bufB := Memory.writeFrom [] 0 b
    bufT := Memory.writeFrom [] 0 t }

/-- `shape`, ECODE and ERR after a command. -/
def outcomeOf (x : Buffer) (o : Host.Outcome State Fault Refusal) : Option (Nat × Nat × Nat × Bool) :=
  (nextOf o).map fun t => ((t.shape x).rows.toNat, (t.shape x).cols.toNat, t.ecode.toNat, t.err)

/-- The machine with one access pending. -/
def withAccess (s : State) (e : HostEvent) : State := { s with pending := [e] }

/-! ## Well-formedness: one ill-formed term for each check -/

theorem test_cap_zero_refused : ({ Config.default with cap := 0 } : Config).wellFormed = false := by decide
theorem test_cap_257_refused : ({ Config.default with cap := 257 } : Config).wellFormed = false := by decide
theorem test_base_unaligned_refused : ({ Config.default with base := 0x2000 } : Config).wellFormed = false := by decide
theorem test_default_config_accepted : Config.default.wellFormed = true := by decide
theorem test_shape_rows_too_large_refused : (HostLine.shape .a 4096 1).wellFormed = false := by decide
theorem test_shape_cols_too_large_refused : (HostLine.shape .a 1 4096).wellFormed = false := by decide
theorem test_loadm_without_rows_refused : (HostLine.loadm .a []).wellFormed = false := by decide
theorem test_loadm_ragged_refused : (HostLine.loadm .b [[5, 6], [7, 8, 9]]).wellFormed = false := by decide
theorem test_loadm_too_many_rows_refused : (HostLine.loadm .a (List.replicate 4096 [])).wellFormed = false := by
  simp [HostLine.wellFormed, -List.reduceReplicate]
theorem test_loadm_too_long_row_refused : (HostLine.loadm .t [List.replicate 4096 0]).wellFormed = false := by
  simp [HostLine.wellFormed, rowLength, -List.reduceReplicate]
theorem test_loadm_accepted : (HostLine.loadm .a [[1, 2], [3, 4]]).wellFormed = true := by decide

/-! ## Decoding: words of 30_encoding.md R87 and 95_test_vectors.md sections 2.1, 2.2, 2.5 -/

theorem test_decode_gmul : decode 0x010002D4 = .ok (.gmul 0x02 0xD4) := by decide
theorem test_decode_b2bits : decode 0x02000000 = .ok .b2bits := by decide
theorem test_decode_bits2b : decode 0x03000000 = .ok .bits2b := by decide
theorem test_decode_mbits : decode 0x04000000 = .ok .mbits := by decide
theorem test_decode_flat_a : decode 0x05000000 = .ok (.flat .a) := by decide
theorem test_decode_flat_b : decode 0x05010000 = .ok (.flat .b) := by decide
theorem test_decode_flat_t : decode 0x05020000 = .ok (.flat .t) := by decide
theorem test_decode_flat_r : decode 0x05030000 = .ok (.flat .r) := by decide
theorem test_decode_mxor : decode 0x06000000 = .ok .mxor := by decide
theorem test_decode_msum : decode 0x07000000 = .ok .msum := by decide
theorem test_reject_zero_word : decode 0x00000000 = .error (.opcodeNotInMap 0x00) := by decide
theorem test_reject_opcode_ff : decode 0xFF000000 = .error (.opcodeNotInMap 0xFF) := by decide
theorem test_reject_gmul_bit_16 : decode 0x01015783 = .error (.reservedBitSet 0x01015783) := by decide
theorem test_reject_gmul_bit_23 : decode 0x01800000 = .error (.reservedBitSet 0x01800000) := by decide
theorem test_reject_flat_low_bit : decode 0x05000001 = .error (.reservedBitSet 0x05000001) := by decide
theorem test_encode_gmul : encode (.gmul 0x57 0x83) = 0x01005783 := by decide
theorem test_encode_flat_t : encode (.flat .t) = 0x05020000 := by decide

/-! ## GMUL: 95_test_vectors.md section 2.1 -/

theorem test_gmul_product : (nextOf (exec (.gmul 0x57 0x83) State.reset)).map (·.gmr) = some 0xC1 := by decide
theorem test_gmul_reduces_on_first_doubling : gmul 0x80 0x02 = 0x1B := by decide
theorem test_gmul_all_ones : gmul 0xFF 0xFF = 0x13 := by decide
theorem test_gmul_clears_ecode_keeps_err :
    (nextOf (exec (.gmul 0x02 0x03) (State.reset.fail .illegalCommand))).map (fun t => (t.gmr, t.statusWord))
      = some (0x06, 0x00000100) := by decide
theorem test_gmul_until_zero : gmulUntilZero 8 0 0x53 0xCA = 0x01 := by decide
theorem test_gmul_unmasked : gmulUnmasked 0x57 0x10 = 0x07 := by decide

/-! ## Repacking: 95_test_vectors.md section 2.2 -/

theorem test_bytes_to_bits : bytesToBits [0xA5, 0x01] = [1, 0, 1, 0, 0, 1, 0, 1, 0, 0, 0, 0, 0, 0, 0, 1] := by decide
theorem test_bits_to_bytes : bitsToBytes [0, 0, 0, 0, 0, 0, 0, 1] = some [0x01] := by decide
theorem test_bits_to_bytes_length_9 : bitsToBytes (List.replicate 9 0) = none := by decide

theorem test_b2bits_first_byte :
    (nextOf (exec .b2bits (machineOf (1, 2) (0, 0) (0, 0) [0xA5, 0x01] [] []))).map
        (fun t => (Memory.read t.bufT 0, Memory.read t.bufT 1, Memory.read t.bufT 15, Memory.read t.bufT 16))
      = some (some 1, some 0, some 1, none) := by decide
theorem test_b2bits_shape :
    outcomeOf .t (exec .b2bits (machineOf (2, 2) (0, 0) (0, 0) [0x80, 0x01, 0xFF, 0x00] [] []))
      = some (1, 32, 0, false) := by decide

theorem test_bits2b_two_bytes :
    (nextOf (exec .bits2b (machineOf (0, 0) (0, 0) (2, 8) [] [] [1, 0, 1, 0, 0, 1, 0, 1, 0, 0, 0, 0, 0, 0, 0, 1]))).map
        (fun t => (t.bufR, t.shapeR)) = some ([(0, 0x0A5), (1, 0x001)], ⟨1, 2⟩) := by decide
theorem test_bits2b_invalid_before_alignment :
    outcomeOf .r (exec .bits2b (machineOf (0, 0) (0, 0) (1, 2049) [] [] [])) = some (0, 0, 3, true) := by decide

theorem test_mbits_second_row :
    (nextOf (exec .mbits (machineOf (2, 2) (0, 0) (0, 0) [0x80, 0x01, 0xFF, 0x00] [] []))).map
        (fun t => (Memory.read t.bufT 15, Memory.read t.bufT 16, Memory.read t.bufT 24)) = some (some 1, some 1, some 0) := by
  decide
theorem test_mbits_zero_rows :
    outcomeOf .t (exec .mbits (machineOf (0, 5) (0, 0) (0, 0) [] [] [])) = some (0, 40, 0, false) := by decide

theorem test_flat_a : outcomeOf .a (exec (.flat .a) (machineOf (16, 16) (0, 0) (0, 0) [] [] [])) = some (1, 256, 0, false) := by
  decide
theorem test_flat_columns_above_cap :
    outcomeOf .a (exec (.flat .a) (machineOf (0, 4095) (0, 0) (0, 0) [] [] [])) = some (0, 4095, 3, true) := by decide

/-! ## Matrix: 95_test_vectors.md section 2.3 -/

theorem test_mxor_source_example :
    (nextOf (exec .mxor (machineOf (2, 2) (2, 2) (0, 0) [1, 2, 3, 4] [5, 6, 7, 8] []))).map (fun t => (t.bufR, t.shapeR))
      = some ([(0, 4), (1, 4), (2, 4), (3, 12)], ⟨2, 2⟩) := by decide
theorem test_mxor_invalid_before_mismatch :
    outcomeOf .r (exec .mxor (machineOf (256, 2) (1, 3) (0, 0) [] [] [])) = some (0, 0, 3, true) := by decide

theorem test_msum_exceeds_a_byte :
    (nextOf (exec .msum (machineOf (1, 2) (1, 2) (0, 0) [0xFF, 0x80] [0xFF, 0x80] []))).map (·.bufR)
      = some [(0, 510), (1, 256)] := by decide
theorem test_msum_row_counts_differ :
    outcomeOf .r (exec .msum (machineOf (2, 2) (1, 4) (0, 0) [] [] [])) = some (0, 0, 1, true) := by decide
theorem test_zero_rows_conform :
    outcomeOf .r (exec .msum (machineOf (0, 3) (0, 5) (0, 0) [] [] [])) = some (0, 3, 0, false) := by decide

/-! ## Codecs: 95_test_vectors.md section 2.4 -/

theorem test_hex2b_odd : hex2b ['0', 'x', 'A', 'B', 'C'] = .ok [0x0A, 0xBC] := by decide
theorem test_hex2b_upper_mark_refused : hex2b ['0', 'X', '1', '2'] = .error .codecError := by decide
theorem test_hex2b_space_refused : hex2b ['1', '2', ' ', '3', '4'] = .error .codecError := by decide
theorem test_hex2b_sign_refused : hex2b ['-', '1'] = .error .codecError := by decide
theorem test_hex2b_second_mark_refused : hex2b ['0', 'x', '0', 'x', '1'] = .error .codecError := by decide
theorem test_hex2b_mixed_case :
    hex2b ['D', 'E', 'A', 'D', 'b', 'e', 'e', 'f'] = .ok [0xDE, 0xAD, 0xBE, 0xEF] := by decide
theorem test_b2hex_source_example :
    b2hex [0, 255, 16] = .ok ['[', '0', 'x', '0', '0', ',', ' ', '0', 'x', 'f', 'f', ',', ' ', '0', 'x', '1', '0', ']'] := by
  decide
theorem test_b2hex_above_255_refused : b2hex [0x1FE] = .error .codecError := by decide

/-! ## Bus accesses: 95_test_vectors.md sections 2.5, 2.6, 2.7 -/

theorem test_read_caps :
    (nextOf (step (withAccess State.reset (.read 0x00C 4)))).map (·.observed) = some [0x00000100] := by decide
theorem test_read_cmd :
    (nextOf (step (withAccess State.reset (.read 0x000 4)))).map (·.observed) = some [0x00000000] := by decide
theorem test_illegal_word_sets_status :
    (nextOf (step (withAccess State.reset (.write 0x000 4 0x08000000)))).map (·.statusWord) = some 0x00000104 := by decide
theorem test_write_status_clears_err :
    (nextOf (step (withAccess (State.reset.fail .alignment) (.write 0x004 4 0x100)))).map (·.statusWord)
      = some 0x00000002 := by decide
theorem test_write_status_without_bit_8 :
    (nextOf (step (withAccess (State.reset.fail .alignment) (.write 0x004 4 0xFF)))).map (·.statusWord)
      = some 0x00000102 := by decide
theorem test_write_shape_drops_reserved_bits :
    (nextOf (step (withAccess State.reset (.write 0x010 4 0xFFFFFFFF)))).map (fun t => t.shapeA.word)
      = some 0x0FFF0FFF := by decide
theorem test_write_byte_keeps_8_bits :
    (nextOf (step (withAccess State.reset (.write 0x400 4 0x1234)))).map (·.bufA) = some [(0, 0x34)] := by decide
theorem test_write_bit_keeps_bit_0 :
    (nextOf (step (withAccess State.reset (.write 0x2000 4 0xFE)))).map (·.bufT) = some [(0, 0)] := by decide
theorem test_write_sum_keeps_9_bits :
    (nextOf (step (withAccess State.reset (.write 0xC00 4 0xFFFF)))).map (·.bufR) = some [(0, 0x1FF)] := by decide
theorem test_read_unwritten :
    faultOf (step (withAccess State.reset (.read 0x400 4))) = some (.unwrittenElement .a 0) := by decide
theorem test_misaligned_read : faultOf (step (withAccess State.reset (.read 0x002 4))) = some (.busError 2) := by decide
theorem test_byte_write : faultOf (step (withAccess State.reset (.write 0x000 1 0x02))) = some (.busError 0) := by decide
theorem test_reserved_low : faultOf (step (withAccess State.reset (.read 0x020 4))) = some (.busError 0x20) := by decide
theorem test_reserved_high :
    faultOf (step (withAccess State.reset (.write 0x1000 4 0))) = some (.busError 0x1000) := by decide

/-- The smallest block, CAP = 1, in a window at 0x8000. -/
def smallest : State := State.resetWith { Config.default with cap := 1, base := 0x8000 }

theorem test_cap_1_last_bit : (nextOf (step (withAccess smallest (.write 0xA01C 4 1)))).map (·.bufT) = some [(7, 1)] := by decide
theorem test_cap_1_unmapped_bit :
    faultOf (step (withAccess smallest (.write 0xA020 4 1))) = some (.busError 0xA020) := by decide
theorem test_cap_1_unmapped_byte :
    faultOf (step (withAccess smallest (.write 0x8404 4 1))) = some (.busError 0x8404) := by decide
theorem test_below_base : faultOf (step (withAccess smallest (.read 0x0004 4))) = some (.busError 4) := by decide
theorem test_reset_input :
    nextOf (step (withAccess (smallest.fail .alignment) .reset)) = some smallest := by decide
theorem test_fetch_word :
    nextOf (step (State.reset.withFetchWord 32 0x01005783)) = nextOf (exec (.gmul 0x57 0x83) State.reset) := by decide
theorem test_decode_table_word : decodeTableWord 32 0x05030000 = some (.flat .r) := by decide

/-! ## Host program lines: 30_encoding.md R89 -/

theorem test_expand_shape :
    (HostLine.shape .b 3 1).expand Config.default = [.write 0x014 4 0x00030001] := by decide
/-- Log entry 17, the model's choice: an index past A's element count expands by the formula of R52. -/
theorem test_expand_past_the_element_count :
    (HostLine.wr (.elem .a 256) 7).expand Config.default = [.write 0x800 4 7] := by decide
theorem test_expand_loadm :
    (HostLine.loadm .a [[1, 2], [3, 4]]).expand Config.default =
      [.write 0x010 4 0x00020002, .write 0x400 4 1, .write 0x404 4 2, .write 0x408 4 3, .write 0x40C 4 4] := by decide
theorem test_expand_read : (HostLine.read .r 2).expand Config.default = [.read 0xC00 4, .read 0xC04 4] := by decide
theorem test_expand_clrerr : HostLine.clrerr.expand Config.default = [.write 0x004 4 0x100] := by decide

/-! ## Witnesses: states and operands that meet each statement's hypotheses, clause by clause -/

/-- All four operand shapes valid, conforming and written: every command runs on it. -/
def ready : State :=
  machineOf (2, 2) (2, 2) (2, 8) [0x80, 0x01, 0xFF, 0x00] [5, 6, 7, 8] [1, 0, 1, 0, 0, 1, 0, 1, 0, 0, 0, 0, 0, 0, 0, 1]

/-- Invalid shapes: 257 columns, and 2049 for T. -/
def oversized : State := machineOf (1, 257) (1, 257) (1, 2049) [] [] []

/-- Valid shapes that no command's operands fill: the last element in use is unwritten. -/
def unfilled : State := machineOf (1, 2) (1, 2) (1, 8) [1] [1, 2] [1, 0, 1, 0, 0, 1, 0]

theorem witness_inv_ready : ready.Inv := ⟨by decide, by decide, by decide, by decide, by decide, by decide⟩
theorem witness_inv_oversized : oversized.Inv := ⟨by decide, by decide, by decide, by decide, by decide, by decide⟩
theorem witness_inv_unfilled : unfilled.Inv := ⟨by decide, by decide, by decide, by decide, by decide, by decide⟩
theorem witness_inv_smallest : smallest.Inv := ⟨by decide, by decide, by decide, by decide, by decide, by decide⟩
theorem witness_inv_reset : State.reset.Inv := ⟨by decide, by decide, by decide, by decide, by decide, by decide⟩

theorem witness_DecodedWordIsItsEncoding : decode 0x0103FFFF = .error (.reservedBitSet 0x0103FFFF) ∧
    decode 0x0100FFFF = .ok (.gmul 0xFF 0xFF) := by decide

theorem witness_EveryWordRunsItsCommandOrIsIllegal :
    (0x00FFFFFF#32).toNat / 2 ^ 24 = 0 ∧ 8 ≤ (0x08000000#32).toNat / 2 ^ 24 ∧
    ((0x01800000#32).toNat / 2 ^ 24 = 1 ∧ (0x01800000#32 &&& 0x00FFFFFF) &&& 0x00FF0000 ≠ 0) ∧
    ((0x05040000#32).toNat / 2 ^ 24 = 5 ∧ (0x05040000#32 &&& 0x00FFFFFF) &&& 0x00FCFFFF ≠ 0) ∧
    ((0x07000001#32).toNat / 2 ^ 24 = 7 ∧ 0x07000001#32 &&& 0x00FFFFFF ≠ 0) ∧
    ((0x0100FFFF#32).toNat / 2 ^ 24 = 1 ∧ (0x0100FFFF#32 &&& 0x00FFFFFF) &&& 0x00FF0000 = 0) ∧
    ((0x05030000#32).toNat / 2 ^ 24 = 5 ∧ (0x05030000#32 &&& 0x00FFFFFF) &&& 0x00FCFFFF = 0 ∧
      [Buffer.a, .b, .t, .r][(0x05030000#32).toNat / 65536 % 4]? = some .r) ∧
    (∀ op ∈ [2, 3, 4, 6, 7], (BitVec.ofNat 32 (op * 2 ^ 24)).toNat / 2 ^ 24 = op ∧
      BitVec.ofNat 32 (op * 2 ^ 24) &&& 0x00FFFFFF = 0) := by decide

theorem witness_CommandWriteStepRunsDecodedCommand :
    smallest.cfg.wellFormed = true ∧
    (withAccess smallest (.write 0x8000 4 0x02000000)).pending = .write smallest.cfg.base 4 0x02000000 :: [] ∧
    decode 0x02000000 = .ok .b2bits ∧ decode 0 = .error (.opcodeNotInMap 0) := by decide

theorem witness_IdleStepChangesNothing : ready.pending = [] := by decide

theorem witness_HostReadReturnsTheValueItNames :
    ready.cfg.wellFormed = true ∧
    (∀ off ∈ [0x000, 0x004, 0x008, 0x00C, 0x01C, 0xC00 + 4 * 255],
      (withAccess ready (.read off 4)).pending = .read (ready.cfg.base + off) 4 :: []) ∧
    ready.elem .a 3 = some 0 ∧ ready.elem .r 255 = none ∧ 255 < Buffer.r.capacity ready.cfg := by decide

theorem witness_HostReadReturnsTheValueItNames_unadmitted : ¬ AdmittedAccess ready.cfg 0x004 2 :=
  fun h => absurd h.1 (by decide)

theorem witness_HostWriteStoresWhatItNames :
    ready.cfg.wellFormed = true ∧
    (∀ off ∈ [0x000, 0x004, 0x008, 0x00C, 0x010, 0x2000 + 4 * 2047],
      (withAccess ready (.write off 4 7)).pending = .write (ready.cfg.base + off) 4 7 :: []) ∧
    2047 < Buffer.t.capacity ready.cfg := by decide

theorem witness_BusErrorExactlyWhenNotAdmitted_admitted : AdmittedAccess smallest.cfg 0xA01C 4 :=
  ⟨rfl, by decide, 0x201C, by decide, .inr (.inr (.inr (.inr ⟨7, by decide, by decide⟩)))⟩

theorem witness_BusErrorExactlyWhenNotAdmitted_not : ¬ AdmittedAccess smallest.cfg 0x7FFC 4 := by
  rintro ⟨-, -, off, h, -⟩
  have : smallest.cfg.base = 0x8000 := rfl
  omega

theorem witness_EachElementHasItsOwnWord : smallest.cfg.wellFormed = true ∧ 0 < Buffer.a.capacity smallest.cfg ∧
    7 < Buffer.t.capacity smallest.cfg ∧ ¬ 8 < Buffer.t.capacity smallest.cfg := by decide

theorem witness_BehaviourDependsOnOffsetsOnly :
    (nextOf (step (ready.placedAt 0x4000 [.write 0x000 4 0x06000000]))).isSome = true ∧
    (faultOf (step (ready.placedAt 0x4000 [.read 0x020 4]))).isSome = true := by decide

theorem witness_StepStopsExactlyWhereTheSpecFaults :
    (faultOf (step (withAccess unfilled (.write 0 4 0x02000000)))).isSome = true ∧
    (nextOf (step (withAccess ready (.write 0 4 0x02000000)))).isSome = true := by decide

theorem witness_GmulIsAssociativeWithUniqueInverses : (0x53 : Byte) ≠ 0 ∧ gmul 0x53 0xCA = 1 := by decide

theorem witness_B2bitsWritesTheBitsOfA :
    FitsIn ready.cfg.cap ready.shapeA ∧ ready.operandsWritten .a ∧ ¬ FitsIn oversized.cfg.cap oversized.shapeA ∧
    FitsIn unfilled.cfg.cap unfilled.shapeA ∧ unfilled.elem .a 1 = none := by decide

theorem witness_Bits2bWritesTheBytesOfT :
    FitsIn (8 * ready.cfg.cap) ready.shapeT ∧ ready.inUse .t % 8 = 0 ∧ ready.operandsWritten .t ∧
    ¬ FitsIn (8 * oversized.cfg.cap) oversized.shapeT ∧
    FitsIn (8 * unfilled.cfg.cap) unfilled.shapeT ∧ unfilled.inUse .t % 8 = 0 ∧ unfilled.elem .t 7 = none ∧
    FitsIn 2048 (machineOf (0, 0) (0, 0) (1, 9) [] [] []).shapeT ∧
    (machineOf (0, 0) (0, 0) (1, 9) [] [] []).inUse .t % 8 ≠ 0 := by decide

theorem witness_FlatMakesOneRow :
    FitsIn 256 (machineOf (256, 1) (0, 0) (0, 0) [] [] []).shapeA ∧
    ¬ FitsIn 256 (machineOf (257, 0) (0, 0) (0, 0) [] [] []).shapeA ∧
    (0x05030000 : Word) &&& 0xFFFCFFFF = 0x05000000 := by decide

theorem witness_MatrixCommands :
    (FitsIn ready.cfg.cap ready.shapeA ∧ FitsIn ready.cfg.cap ready.shapeB ∧ Conforms ready.shapeA ready.shapeB ∧
      ready.operandsWritten .a ∧ ready.operandsWritten .b) ∧
    ¬ FitsIn oversized.cfg.cap oversized.shapeA ∧
    (Conforms unfilled.shapeA unfilled.shapeB ∧ unfilled.elem .a 1 = none) ∧
    ¬ Conforms (Shape.ofCounts 2 2) (Shape.ofCounts 2 3) ∧ Conforms (Shape.ofCounts 0 3) (Shape.ofCounts 0 5) := by decide

theorem witness_MatrixCommandsIgnoreOperandOrder :
    ready.shapeA.rows ≠ 0 ∧ (nextOf (exec .mxor ready)).isSome = true ∧ (nextOf (exec .msum ready)).isSome = true := by decide

theorem witness_MxorOfAMatrixWithItselfIsZero :
    let s := machineOf (1, 2) (1, 2) (0, 0) [3, 4] [3, 4] []
    s.shapeB = s.shapeA ∧ s.bufB = s.bufA ∧ FitsIn s.cfg.cap s.shapeA ∧ s.operandsWritten .a := by decide

theorem witness_MxorOfAMatrixWithItselfIsZero_inv : (machineOf (1, 2) (1, 2) (0, 0) [3, 4] [3, 4] []).Inv :=
  ⟨by decide, by decide, by decide, by decide, by decide, by decide⟩

theorem witness_MxorAndMsumAgreeWhereNoBitIsShared :
    (nextOf (exec .mxor ready)).map (·.ecode) = some 0 ∧ (nextOf (exec .msum ready)).isSome = true ∧
    ready.elem .a 0 = some 0x80 ∧ ready.elem .b 0 = some 5 := by decide

theorem witness_ErrorsAreReportedInOrder :
    (∀ x ∈ Instr.mxor.checks, FitsIn (x.capacity ready.cfg) (ready.shape x)) ∧
    (¬ ∀ x ∈ Instr.mxor.checks, FitsIn (x.capacity oversized.cfg) (oversized.shape x)) ∧
    (faultOf (execute 0x06000000 unfilled)).isSome = true := by decide

theorem witness_FailedCommandChangesOnlyStatus :
    (nextOf (execute 0x02000000 oversized)).map (·.ecode) = some 3 := by decide

theorem witness_StatusNeverSteersACommand :
    (nextOf (execute 0x04000000 ready)).isSome = true ∧ (faultOf (execute 0x04000000 unfilled)).isSome = true := by decide

theorem witness_ErrTellsWhetherAnyCommandFailed :
    ready.cfg.wellFormed = true ∧ ready.err = false ∧
    (nextOf (performAll ([0x08000000, 0x01000000].map (commandWrite ready.cfg)) ready)).map (fun t => (t.err, t.ecode))
      = some (true, 0) := by decide

theorem witness_StepKeepsTheInvariant :
    (nextOf (step (withAccess ready (.write 0 4 0x04000000)))).isSome = true := by decide

theorem witness_StepKeepsTheInvariant_inv : (withAccess ready (.write 0 4 0x04000000)).Inv :=
  ⟨by decide, by decide, by decide, by decide, by decide, by decide⟩

theorem witness_ResetInputSetsTheResetState : (withAccess ready .reset).pending = .reset :: [] := by decide

theorem witness_OnlyGmulWritesGmr :
    (nextOf (step (withAccess ready (.write 0 4 0x01005783)))).map (·.gmr) = some 0xC1 ∧
    (nextOf (step (withAccess ready (.write 8 4 0x55)))).map (·.gmr) = some 0 := by decide

theorem witness_ElementKeepsItsValueUntilWritten :
    (nextOf (step (withAccess ready (.write 0 4 0x06000000)))).map (fun t => (Memory.read t.bufR 0, t.ecode))
      = some (some 0x085, 0) ∧
    (nextOf (step (withAccess oversized (.write 0 4 0x06000000)))).map (·.ecode) = some 3 := by decide

theorem witness_RepeatingACommandChangesNothing : (nextOf (execute 0x05000000 ready)).isSome = true := by decide

theorem witness_LoadmPlacesTheMatrixRowMajor :
    (HostLine.loadm .a [[1, 2], [3, 4]]).wellFormed = true ∧ (∀ row ∈ [[1, 2], [3, (4 : Word)]], row.length = 2) ∧
    [[1, 2], [3, (4 : Word)]].length * 2 ≤ Buffer.a.capacity ready.cfg := by decide

theorem witness_LoadedOperandsMakeCommandsRun :
    (HostLine.loadm .a [[7]]).wellFormed = true ∧ (HostLine.loadm .b [[9]]).wellFormed = true ∧
    smallest.cfg.wellFormed = true ∧ [[(7 : Word)]].length ≤ smallest.cfg.cap ∧ 1 ≤ smallest.cfg.cap ∧
    [[(7 : Word)]].length * 1 ≤ smallest.cfg.cap := by decide

theorem witness_HexDecodesTheCanonicalForm :
    (∀ ch ∈ ['a', 'B', '0'], (hexval ch).isSome = true) ∧ ['a', 'B', '0'].length % 2 = 1 ∧ hexval 'x' = none :=
  ⟨by simp [hexval], by decide, by simp [hexval]⟩

theorem witness_HexDecodesTheCanonicalForm_mixedCase :
    ['a', 'F', '0', '9'].length = 2 * [(0xAF : Byte), 0x09].length ∧
    ∀ k (hk : k < [(0xAF : Byte), 0x09].length),
      (['a', 'F', '0', '9'][2 * k]?).bind hexval = some ([(0xAF : Byte), 0x09][k].toNat / 16) ∧
      (['a', 'F', '0', '9'][2 * k + 1]?).bind hexval = some ([(0xAF : Byte), 0x09][k].toNat % 16) := by
  refine ⟨by decide, fun k hk => ?_⟩
  simp only [List.length_cons, List.length_nil] at hk
  interval_cases k <;> simp [hexval]

theorem witness_LoadedBytesAndBitsConvert :
    smallest.cfg.wellFormed = true ∧
    ((HostLine.loadm .a [[0xA5]]).wellFormed = true ∧ FitsCounts smallest.cfg.cap 1 1) ∧
    ((HostLine.loadm .t [[1, 0, 1, 0, 0, 1, 0, 1]]).wellFormed = true ∧ FitsCounts (8 * smallest.cfg.cap) 1 8) := by decide

theorem witness_DisplayRendersBytesAndIsNoHexString : (∀ v ∈ [0, 255], v ≤ 255) ∧ 255 < 256 := by decide

theorem witness_ValueWrittenIsReadBack : smallest.cfg.wellFormed = true ∧ 0 < Buffer.r.capacity smallest.cfg := by decide

theorem witness_StepsPerformPendingAccessesInOrder : ready.pending = [] ∧ smallest.pending = [] := by decide

theorem witness_GmulStoppingWhenExhaustedAgrees : 8 ≤ 8 ∧ gmulUntilZero 8 0 0x80 0x80 = gmul 0x80 0x80 := by decide

theorem witness_BytesAndBitsConvertMostSignificantFirst :
    bitsToBytes [1, 0, 1, 0, 0, 1, 0, 1] = some [0xA5] ∧ [(1 : Bit)].length % 8 ≠ 0 := by decide

theorem witness_MbitsExpandsEachRowOfA :
    (FitsIn ready.cfg.cap ready.shapeA ∧ ready.operandsWritten .a) ∧ ¬ FitsIn oversized.cfg.cap oversized.shapeA ∧
    (FitsIn unfilled.cfg.cap unfilled.shapeA ∧ unfilled.elem .a 1 = none) ∧
    (nextOf (exec .mbits ready)).isSome = true := by decide

theorem witness_BitsAndBackLeaveFlatAInR :
    FitsIn ready.cfg.cap ready.shapeA ∧ ready.operandsWritten .a ∧ (nextOf (exec .b2bits ready)).isSome = true := by decide

theorem witness_MbitsThenFlatIsB2bits : FitsIn ready.cfg.cap ready.shapeA ∧ ready.operandsWritten .a := by decide

theorem witness_EachCommandRecordsOnlyItsCodes :
    (nextOf (exec .msum ready)).map (·.ecode) = some 0 ∧ (nextOf (exec .bits2b oversized)).map (·.ecode) = some 3 := by decide

theorem witness_ConfigurationNeverChanges :
    (nextOf (step (withAccess smallest (.write 0x800C 4 5)))).map (·.cfg.cap) = some 1 := by decide

theorem witness_ResetStatements : smallest.cfg.wellFormed = true ∧ Config.default.wellFormed = true := by decide

end Sys2Proof.Machine
end

section
/-! PROOFS for 10_state.md. What moving a whole buffer keeps of the invariant, and one statement of everything a command and a
step can do; each statement of the family is then a short case analysis of that. -/

/-! ## The state's operations -/

namespace Sys2Proof.Machine

variable {s t : State}

/-- The invariant, with its four buffers as one clause. -/
theorem State.inv_iff (s : State) :
    s.Inv ↔ s.cfg.wellFormed = true ∧ s.ecode.toNat ≤ 4 ∧ ∀ x, s.bufferWf x := by
  constructor
  · rintro ⟨hcfg, hecode, ha, hb, ht, hr⟩
    exact ⟨hcfg, hecode, fun x => by cases x <;> assumption⟩
  · rintro ⟨hcfg, hecode, hbuf⟩
    exact ⟨hcfg, hecode, hbuf .a, hbuf .b, hbuf .t, hbuf .r⟩

/-- The invariant speaks of the configuration, ECODE and the buffers only. -/
theorem State.Inv.of_same_buffers (h : s.Inv) (hcfg : t.cfg = s.cfg) (hecode : t.ecode.toNat ≤ 4)
    (hbuf : ∀ x, t.buf x = s.buf x) : t.Inv := by
  obtain ⟨hc, -, hb⟩ := (State.inv_iff s).1 h
  refine (State.inv_iff t).2 ⟨hcfg ▸ hc, hecode, fun x => ?_⟩
  rw [State.bufferWf, hcfg, hbuf]
  exact hb x

/-- Replacing a buffer keeps the invariant when the new contents are in canonical form within the element count. -/
theorem State.Inv.setBuf (h : s.Inv) (x : Buffer) {m : Memory x.width} (hwf : Memory.wf m)
    (hbelow : Memory.below (x.capacity s.cfg) m) : (s.setBuf x m).Inv := by
  obtain ⟨hc, he, hb⟩ := (State.inv_iff s).1 h
  refine (State.inv_iff _).2 ⟨by simpa using hc, by simpa using he, fun y => ?_⟩
  by_cases hy : y = x
  · subst hy
    simpa [State.bufferWf] using And.intro hwf hbelow
  · simpa [State.bufferWf, State.buf_setBuf_of_ne s hy] using hb y

theorem State.Inv.bufferWf (h : s.Inv) (x : Buffer) : s.bufferWf x := ((State.inv_iff s).1 h).2.2 x

theorem State.Inv.writeElems (h : s.Inv) {x : Buffer} {i : Nat} {vs : List (BitVec x.width)}
    (hi : i + vs.length ≤ x.capacity s.cfg) : (s.writeElems x i vs).Inv :=
  have ⟨hwf, hbelow⟩ := h.bufferWf x
  h.setBuf x (Memory.wf_writeFrom vs hwf i) (Memory.below_writeFrom vs hbelow i hi)

theorem State.Inv.setElem (h : s.Inv) {x : Buffer} {i : Nat} (hi : i < x.capacity s.cfg) (v : BitVec x.width) :
    (s.setElem x i v).Inv :=
  have ⟨hwf, hbelow⟩ := h.bufferWf x
  h.setBuf x (Memory.wf_write hwf i v) (Memory.below_write hbelow hi v)

theorem State.Inv.succeed (h : s.Inv) : s.succeed.Inv := h.of_same_buffers rfl (by simp) (by simp)

theorem State.Inv.fail (h : s.Inv) (e : CommandError) : (s.fail e).Inv :=
  h.of_same_buffers rfl (by cases e <;> simp [CommandError.code]) (by simp)

theorem State.Inv.setGmr (h : s.Inv) (p : Byte) : (s.setGmr p).Inv := h.of_same_buffers rfl h.ecode (by simp)

theorem State.Inv.setShape (h : s.Inv) (x : Buffer) (sh : Shape) : (s.setShape x sh).Inv :=
  h.of_same_buffers (by simp) (by simpa using h.ecode) (by simp)

theorem State.Inv.observe (h : s.Inv) (v : Word) : (s.observe v).Inv := h.of_same_buffers rfl h.ecode (by simp)

theorem State.Inv.pending (h : s.Inv) (es : List HostEvent) : ({ s with pending := es } : State).Inv :=
  h.of_same_buffers rfl h.ecode (by simp)

@[simp] theorem State.buf_writeStatus (v : Word) (x : Buffer) : (s.writeStatus v).buf x = s.buf x := by
  unfold State.writeStatus
  split <;> cases x <;> rfl

@[simp] theorem State.elem_writeStatus (v : Word) (x : Buffer) (i : Nat) : (s.writeStatus v).elem x i = s.elem x i := by
  simp [State.elem]

theorem State.Inv.writeStatus (h : s.Inv) (v : Word) : (s.writeStatus v).Inv :=
  h.of_same_buffers (by simp) (by simpa using h.ecode) (by simp)

@[simp] theorem State.buf_resetBlock (s : State) (x : Buffer) : s.resetBlock.buf x = [] := by cases x <;> rfl

theorem State.Inv.resetBlock (h : s.Inv) : s.resetBlock.Inv :=
  (State.inv_iff _).2 ⟨h.config, by simp, fun x => by simp [State.bufferWf]⟩

/-- The bounds a configuration the spec allows puts on CAP and BASE. -/
theorem Config.wellFormed_iff (c : Config) :
    c.wellFormed = true ↔ 1 ≤ c.cap ∧ c.cap ≤ 256 ∧ c.base % 0x4000 = 0 := by
  simp [Config.wellFormed, and_assoc]

end Sys2Proof.Machine

/-! ## The address map -/

namespace Sys2Proof.Machine

variable {c : Config}

/-- The element ranges of the window do not overlap (20_memory.md R51). -/
theorem windows_disjoint {x y : Buffer} (h : x ≠ y) :
    windowEnd x ≤ windowOffset y ∨ windowEnd y ≤ windowOffset x := by
  cases x <;> cases y <;> simp [windowOffset, windowEnd] at h ⊢

theorem window_unique {x y : Buffer} {off : Nat} (hx : windowOffset x ≤ off) (hx' : off < windowEnd x)
    (hy : windowOffset y ≤ off) (hy' : off < windowEnd y) : x = y := by
  by_contra h
  have := windows_disjoint h
  omega

/-- An element's range lies past the registers. -/
theorem le_windowOffset (x : Buffer) : 0x0400 ≤ windowOffset x := by cases x <;> decide

/-- An offset reaches exactly a register or a mapped element. -/
theorem decodeOffset_eq_some_iff (c : Config) (off : Nat) (loc : Target) :
    decodeOffset c off = some loc ↔ registerAt off = some loc ∨
      ∃ x i, loc = .elem x i ∧ off = windowOffset x + 4 * i ∧ off < windowEnd x ∧ i < x.capacity c := by
  unfold decodeOffset
  cases hreg : registerAt off with
  | some r =>
    have hlow : off ≤ 0x01C := (registerAt_eq_some hreg).2.2
    have hno : ¬ ∃ x i, loc = .elem x i ∧ off = windowOffset x + 4 * i ∧ off < windowEnd x ∧ i < x.capacity c := by
      rintro ⟨x, i, -, h, -⟩
      have := le_windowOffset x
      omega
    simp [hno]
  | none =>
    simp only [reduceCtorEq, false_or]
    constructor
    · intro h
      obtain ⟨x, -, hx⟩ := List.exists_of_findSome?_eq_some h
      exact ⟨x, (elementOf_eq_some_iff c x off loc).1 hx⟩
    · rintro ⟨x, i, rfl, hoff, hend, hi⟩
      have hx : elementOf c x off = some (.elem x i) := (elementOf_eq_some_iff ..).2 ⟨i, rfl, hoff, hend, hi⟩
      cases hfind : [Buffer.a, .b, .r, .t].findSome? (fun y => elementOf c y off) with
      | none =>
        have := List.findSome?_eq_none_iff.1 hfind x (by cases x <;> simp)
        simp [hx] at this
      | some r =>
        obtain ⟨y, -, hy⟩ := List.exists_of_findSome?_eq_some hfind
        obtain ⟨j, -, hoff', hend', -⟩ := (elementOf_eq_some_iff c y off r).1 hy
        have hxy : x = y := window_unique (off := off) (by omega) hend (by omega) hend'
        rw [← hxy, hx] at hy
        exact hy.symm

/-- A mapped element's offset stays inside its buffer's range. -/
theorem elem_offset_lt_windowEnd (hc : c.wellFormed = true) {x : Buffer} {i : Nat} (hi : i < x.capacity c) :
    windowOffset x + 4 * i < windowEnd x := by
  obtain ⟨-, hcap, -⟩ := (Config.wellFormed_iff c).1 hc
  cases x <;> simp only [windowOffset, windowEnd, Buffer.capacity] at * <;> omega

/-- Every mapped element is reached at its offset (20_memory.md R52). -/
theorem decodeOffset_elem (hc : c.wellFormed = true) {x : Buffer} {i : Nat} (hi : i < x.capacity c) :
    decodeOffset c (windowOffset x + 4 * i) = some (.elem x i) :=
  (decodeOffset_eq_some_iff ..).2 (.inr ⟨x, i, rfl, rfl, elem_offset_lt_windowEnd hc hi, hi⟩)

/-- Whatever an offset reaches, it is that target's own offset, and an element reached is a mapped one. -/
theorem offset_of_decodeOffset {off : Nat} {loc : Target} (h : decodeOffset c off = some loc) :
    off = loc.offset ∧ off % 4 = 0 ∧ ∀ x i, loc = .elem x i → i < x.capacity c := by
  rcases (decodeOffset_eq_some_iff ..).1 h with h | ⟨x, i, rfl, hoff, -, hi⟩
  · obtain ⟨hoff, hal, hlow⟩ := registerAt_eq_some h
    refine ⟨hoff, hal, ?_⟩
    rintro x i rfl
    have := le_windowOffset x
    simp only [Target.offset] at hoff
    omega
  · have hal : windowOffset x % 4 = 0 := by cases x <;> rfl
    refine ⟨hoff, by omega, ?_⟩
    rintro _ _ ⟨⟩
    exact hi

/-- A word access at an offset that decodes is admitted (20_memory.md R55), since BASE is a multiple of 16 KiB. -/
theorem admitted_base_add (hc : c.wellFormed = true) {off : Nat} {loc : Target} (h : decodeOffset c off = some loc) :
    admitted c (c.base + off) 4 = some loc := by
  obtain ⟨-, -, hbase⟩ := (Config.wellFormed_iff c).1 hc
  obtain ⟨-, hal, -⟩ := offset_of_decodeOffset h
  refine (admitted_eq_some_iff ..).2 ⟨⟨rfl, by omega, by omega⟩, ?_⟩
  rwa [Nat.add_sub_cancel_left]

/-- What an admitted access says of its address, its width and its target. -/
theorem eq_of_admitted {addr n : Nat} {loc : Target} (h : admitted c addr n = some loc) :
    n = 4 ∧ addr = c.base + loc.offset ∧ ∀ x i, loc = .elem x i → i < x.capacity c := by
  obtain ⟨⟨hn, -, hbase⟩, hdec⟩ := (admitted_eq_some_iff ..).1 h
  obtain ⟨hoff, -, hi⟩ := offset_of_decodeOffset hdec
  exact ⟨hn, by omega, hi⟩

theorem admitted_cmd (hc : c.wellFormed = true) : admitted c c.base 4 = some .cmd :=
  admitted_base_add hc (off := 0) rfl

theorem admitted_shape (hc : c.wellFormed = true) (x : Buffer) :
    admitted c (c.base + shapeOffset x) 4 = some (.shape x) :=
  admitted_base_add hc (by cases x <;> rfl)

theorem admitted_elem (hc : c.wellFormed = true) {x : Buffer} {i : Nat} (hi : i < x.capacity c) :
    admitted c (c.base + windowOffset x + 4 * i) 4 = some (.elem x i) := by
  rw [Nat.add_assoc]
  exact admitted_base_add hc (decodeOffset_elem hc hi)

/-- The offsets the statements list are those of the address map. -/
theorem eq_of_mem_elementWindows {p : Buffer × Nat} (h : p ∈ elementWindows) : p.2 = windowOffset p.1 := by
  revert p
  decide

theorem eq_of_mem_shapeOffsets {p : Buffer × Nat} (h : p ∈ shapeOffsets) : p.2 = shapeOffset p.1 := by
  revert p
  decide

end Sys2Proof.Machine

/-! ## What a command can do -/

namespace Sys2Proof.Machine

variable {s t : State}

theorem Memory.writeFrom_append {w : Nat} (m : Memory w) (i : Nat) (vs us : List (BitVec w)) :
    Memory.writeFrom m i (vs ++ us) = Memory.writeFrom (Memory.writeFrom m i vs) (i + vs.length) us := by
  induction vs generalizing m i with
  | nil => rfl
  | cons v vs ih => simp [Memory.writeFrom, ih, Nat.add_assoc, Nat.add_comm 1]

theorem State.writeElems_append (s : State) (x : Buffer) (i : Nat) (vs us : List (BitVec x.width)) :
    s.writeElems x i (vs ++ us) = (s.writeElems x i vs).writeElems x (i + vs.length) us := by
  cases x <;> simp only [State.writeElems, Memory.writeFrom_append] <;> rfl

/-- Rows of one length have eight bits for each of their bytes. -/
theorem length_flatMap_bytesToBits {c : Nat} {rows : List (List Byte)} (h : ∀ row ∈ rows, row.length = c) :
    (rows.flatMap bytesToBits).length = rows.length * (8 * c) := by
  induction rows with
  | nil => simp
  | cons row rows ih =>
    obtain ⟨hrow, hrows⟩ := List.forall_mem_cons.1 h
    simp only [List.flatMap_cons, List.length_append, bytesToBits_length, hrow, ih hrows, List.length_cons, Nat.succ_mul]
    omega

/-- Rows of `c` bytes, each written where the one before it ended, are one sequence of bits (42_repack.md R135). -/
theorem writeBitRows_eq_writeElems {c : Nat} {rows : List (List Byte)} (h : ∀ row ∈ rows, row.length = c) (s : State)
    (i : Nat) : writeBitRows c s i rows = s.writeElems .t (i * (8 * c)) (rows.flatMap bytesToBits) := by
  induction rows generalizing s i with
  | nil => rfl
  | cons row rows ih =>
    obtain ⟨hrow, hrows⟩ := List.forall_mem_cons.1 h
    have hnext : (i + 1) * (8 * c) = i * (8 * c) + (bytesToBits row).length := by
      rw [bytesToBits_length, hrow, Nat.succ_mul]
    rw [writeBitRows, ih hrows, hnext]
    exact (s.writeElems_append .t ..).symm

/-- The bytes of a bit sequence: one for each full group of eight. -/
theorem packGroups_length : ∀ x : List Bit, (packGroups x).length = x.length / 8
  | _ :: _ :: _ :: _ :: _ :: _ :: _ :: _ :: x => by
    simp only [packGroups, List.length_cons, packGroups_length x]
    omega
  | [] | [_] | [_, _] | [_, _, _] | [_, _, _, _] | [_, _, _, _, _] | [_, _, _, _, _, _] | [_, _, _, _, _, _, _] => by
    simp [packGroups]

/-- A valid shape holds no more elements than its buffer has (10_state.md R28). -/
theorem inUse_le_of_shapeValid {x : Buffer} (h : s.shapeValid x = true) : s.inUse x ≤ x.capacity s.cfg :=
  ((Shape.valid_iff ..).1 h).2.2

/-- Everything a command that goes on can do: fail its checks, leave a product in GMR (GMUL), make a buffer one row (FLAT), or
store a sequence from element 0 of its result buffer on, with a shape that holds just that sequence. -/
inductive CommandResult (i : Instr) (s : State) : State → Prop
  | failed (e : CommandError) (he : shapeError i s = some e) : CommandResult i s (s.fail e)
  | multiplied (a b : Byte) (hi : i = .gmul a b) : CommandResult i s (s.setGmr (gmul a b)).succeed
  | flattened (x : Buffer) (hi : i = .flat x) (hv : s.shapeValid x = true) :
      CommandResult i s (s.setShape x (Shape.ofCounts 1 (s.inUse x))).succeed
  | stored (x : Buffer) (vs : List (BitVec x.width)) (sh : Shape) (n : Nat) (hi : i.writes = some x) (hn : vs.length = n)
      (hcap : n ≤ x.capacity s.cfg) (hsh : s.cfg.wellFormed = true → sh.count = n) :
      CommandResult i s ((s.writeElems x 0 vs).setShape x sh).succeed

theorem b2bits_result (h : execB2bits s = .next t) : CommandResult .b2bits s t := by
  rcases execB2bits_cases h with ⟨hv, rfl⟩ | ⟨hv, (x : List Byte), hx, rfl⟩
  · exact .failed _ (by simp [shapeError, Instr.checks, hv])
  · have hlen : x.length = s.inUse .a := ((readElems_eq_ok_iff ..).1 hx).1
    have huse : s.inUse .a ≤ s.cfg.cap := inUse_le_of_shapeValid hv
    have hbits : (bytesToBits x).length = 8 * s.inUse .a := by rw [bytesToBits_length, hlen]
    refine .stored .t (bytesToBits x) _ (8 * s.inUse .a) rfl hbits (Nat.mul_le_mul_left 8 huse) fun hc => ?_
    have hcap := ((Config.wellFormed_iff _).1 hc).2.1
    rw [Shape.ofCounts_count (by omega) (by omega), Nat.one_mul]

theorem bits2b_result (h : execBits2b s = .next t) : CommandResult .bits2b s t := by
  rcases execBits2b_cases h with ⟨hv, rfl⟩ | ⟨hv, ha, rfl⟩ | ⟨hv, ha, (x : List Bit), hx, rfl⟩
  · exact .failed _ (by simp [shapeError, Instr.checks, hv])
  · exact .failed _ (by simp [shapeError, Instr.checks, hv, ha])
  · have hlen : x.length = s.inUse .t := ((readElems_eq_ok_iff ..).1 hx).1
    have huse : s.inUse .t ≤ 8 * s.cfg.cap := inUse_le_of_shapeValid hv
    have hbytes : ((packGroups x).map fun y => y.setWidth 9).length = s.inUse .t / 8 := by
      rw [List.length_map, packGroups_length, hlen]
    refine .stored .r ((packGroups x).map fun y => y.setWidth 9) _ (s.inUse .t / 8) rfl hbytes
      (Nat.div_le_of_le_mul huse) fun hc => ?_
    have hcap := ((Config.wellFormed_iff _).1 hc).2.1
    rw [Shape.ofCounts_count (by omega) (by omega), Nat.one_mul]

theorem mbits_result (h : execMbits s = .next t) : CommandResult .mbits s t := by
  rcases execMbits_cases h with ⟨hv, rfl⟩ | ⟨hv, (rows : List (List Byte)), hrows, rfl⟩
  · exact .failed _ (by simp [shapeError, Instr.checks, hv])
  · obtain ⟨hlen, hget⟩ : rows.length = s.shapeA.rows.toNat ∧ _ := (collect_eq_ok_iff ..).1 hrows
    have hrow : ∀ row ∈ rows, row.length = s.shapeA.cols.toNat := fun row hmem => by
      obtain ⟨k, hk, rfl⟩ := List.getElem_of_mem hmem
      exact ((readElems_eq_ok_iff ..).1 (hget k hk)).1
    obtain ⟨-, hcols, huse⟩ : _ ∧ s.shapeA.cols.toNat ≤ s.cfg.cap ∧ _ := (Shape.valid_iff ..).1 hv
    have hbits : (rows.flatMap bytesToBits).length = s.shapeA.rows.toNat * (8 * s.shapeA.cols.toNat) := by
      rw [length_flatMap_bytesToBits hrow, hlen]
    rw [writeBitRows_eq_writeElems hrow, Nat.zero_mul]
    refine .stored .t (rows.flatMap bytesToBits) _ (s.shapeA.rows.toNat * (8 * s.shapeA.cols.toNat)) rfl hbits ?_ fun hc => ?_
    · rw [Nat.mul_left_comm]
      exact Nat.mul_le_mul_left 8 huse
    · have hcap := ((Config.wellFormed_iff _).1 hc).2.1
      exact Shape.ofCounts_count (by omega) (by omega)

theorem matrix_result {i : Instr} {lane : Byte → Byte → Sum} (hi : i = .mxor ∨ i = .msum)
    (h : matrixCommand lane s = .next t) : CommandResult i s t := by
  have herr : shapeError i s = if s.shapeValid .a && s.shapeValid .b then
      if conform s.shapeA s.shapeB then none else some .shapeMismatch else some .shapeInvalid := by
    rcases hi with rfl | rfl <;> simp [shapeError, Instr.checks]
  rcases matrixCommand_cases h with ⟨hv, rfl⟩ | ⟨hv, hconf, rfl⟩ | ⟨hv, -, y, hy, rfl⟩
  · exact .failed _ (by simp [herr, hv])
  · exact .failed _ (by simp [herr, hv, hconf])
  · have hva : s.shapeValid .a = true := (Bool.and_eq_true_iff.1 hv).1
    exact .stored .r y s.shapeA (s.inUse .a) (by rcases hi with rfl | rfl <;> rfl) ((collect_eq_ok_iff ..).1 hy).1
      (inUse_le_of_shapeValid hva) fun _ => rfl

/-- Each command's next state is one of the four. -/
theorem exec_result {i : Instr} (h : exec i s = .next t) : CommandResult i s t := by
  cases i with
  | gmul a b =>
    rw [execGmul_cases h]
    exact .multiplied a b rfl
  | b2bits => exact b2bits_result h
  | bits2b => exact bits2b_result h
  | mbits => exact mbits_result h
  | flat x =>
    rcases execFlat_cases h with ⟨hv, rfl⟩ | ⟨hv, rfl⟩
    · exact .failed _ (by simp [shapeError, Instr.checks, hv])
    · exact .flattened x rfl hv
  | mxor => exact matrix_result (.inl rfl) h
  | msum => exact matrix_result (.inr rfl) h

/-- Every word's next state: an illegal word fails, any other runs its command. -/
theorem execute_result {w : Word} (h : execute w s = .next t) :
    ((∃ e, decode w = .error e) ∧ t = s.fail .illegalCommand) ∨ ∃ i, decode w = .ok i ∧ CommandResult i s t := by
  cases hw : decode w with
  | error e =>
    rw [execute_of_reject hw] at h
    exact .inl ⟨⟨e, rfl⟩, (Host.Outcome.next.inj h).symm⟩
  | ok i =>
    rw [execute_of_decode hw] at h
    exact .inr ⟨i, rfl, exec_result h⟩

namespace CommandResult

variable {i : Instr}

theorem cfg_eq (h : CommandResult i s t) : t.cfg = s.cfg := by cases h <;> simp

theorem inv (h : CommandResult i s t) (hs : s.Inv) : t.Inv := by
  cases h with
  | failed e => exact hs.fail e
  | multiplied a b => exact (hs.setGmr _).succeed
  | flattened x => exact (hs.setShape x _).succeed
  | stored x vs sh n hi hn hcap => exact ((hs.writeElems (by omega)).setShape x sh).succeed

/-- Only GMUL writes GMR (10_state.md R25). -/
theorem gmr_eq (h : CommandResult i s t) (hi : ∀ a b, i ≠ .gmul a b) : t.gmr = s.gmr := by
  cases h with
  | multiplied a b hg => exact absurd hg (hi a b)
  | _ => simp

/-- A command that reports an error did nothing but record it (60_exceptions.md R172). -/
theorem eq_fail (h : CommandResult i s t) (ht : t.ecode ≠ 0) : ∃ e, t = s.fail e := by
  cases h with
  | failed e => exact ⟨e, rfl⟩
  | _ => simp at ht

/-- An element a command changes lies in its result buffer and result shape, and the command succeeded. -/
theorem of_elem_ne (h : CommandResult i s t) (hc : s.cfg.wellFormed = true) {y : Buffer} {k : Nat}
    (hne : t.elem y k ≠ s.elem y k) : i.writes = some y ∧ k < t.inUse y ∧ t.ecode = 0 := by
  cases h with
  | stored x vs sh n hi hn hcap hsh =>
    simp only [State.elem_succeed, State.elem_setShape] at hne
    obtain rfl : y = x := by
      by_contra hy
      exact hne (s.elem_writeElems_of_ne hy 0 k vs)
    have hk : k < vs.length := by
      by_contra hk
      exact hne (by rw [State.elem_writeElems, if_neg (by omega)])
    exact ⟨hi, by simpa [State.inUse, hsh hc, hn] using hk, by simp⟩
  | _ => simp at hne

end CommandResult

end Sys2Proof.Machine

/-! ## What a step can do -/

namespace Sys2Proof.Machine

variable {s t : State}

/-- Everything a step that goes on can do, by the host's next access. -/
inductive StepResult (s : State) : State → Prop
  | idle (hp : s.pending = []) : StepResult s s
  | hostRead (addr n : Nat) (v : Word) (es : List HostEvent) (hp : s.pending = .read addr n :: es) :
      StepResult s (State.observe { s with pending := es } v)
  | resetInput (es : List HostEvent) (hp : s.pending = .reset :: es) :
      StepResult s (State.resetBlock { s with pending := es })
  | illegalWord (w : Word) (es : List HostEvent) (hp : s.pending = .write s.cfg.base 4 w :: es)
      (hw : ∃ e, decode w = .error e) : StepResult s (State.fail { s with pending := es } .illegalCommand)
  | command (w : Word) (i : Instr) (es : List HostEvent) (hp : s.pending = .write s.cfg.base 4 w :: es)
      (hw : decode w = .ok i) {t : State} (ht : CommandResult i { s with pending := es } t) : StepResult s t
  | statusWrite (v : Word) (es : List HostEvent) (hp : s.pending = .write (s.cfg.base + Target.offset .status) 4 v :: es) :
      StepResult s (State.writeStatus { s with pending := es } v)
  | readOnlyWrite (loc : Target) (v : Word) (es : List HostEvent) (hloc : loc = .gmr ∨ loc = .caps)
      (hp : s.pending = .write (s.cfg.base + loc.offset) 4 v :: es) : StepResult s { s with pending := es }
  | shapeWrite (x : Buffer) (v : Word) (es : List HostEvent)
      (hp : s.pending = .write (s.cfg.base + shapeOffset x) 4 v :: es) :
      StepResult s (State.setShape { s with pending := es } x (Shape.ofWord v))
  | elemWrite (x : Buffer) (k : Nat) (v : Word) (es : List HostEvent)
      (hp : s.pending = .write (s.cfg.base + (windowOffset x + 4 * k)) 4 v :: es) (hk : k < x.capacity s.cfg) :
      StepResult s (State.setElem { s with pending := es } x k (v.setWidth x.width))

theorem write_result {addr n : Nat} {v : Word} {es : List HostEvent} (hp : s.pending = .write addr n v :: es)
    (h : memWrite { s with pending := es } addr n v = .next t) : StepResult s t := by
  obtain ⟨loc, hadm, hwrite⟩ := (memWrite_eq_next_iff ..).1 h
  obtain ⟨rfl, rfl, hmapped⟩ := eq_of_admitted hadm
  cases loc with
  | cmd =>
    rcases execute_result hwrite with ⟨hw, rfl⟩ | ⟨i, hw, ht⟩
    · exact .illegalWord v es hp hw
    · exact .command v i es hp hw ht
  | status => cases hwrite; exact .statusWrite v es hp
  | gmr => cases hwrite; exact .readOnlyWrite .gmr v es (.inl rfl) hp
  | caps => cases hwrite; exact .readOnlyWrite .caps v es (.inr rfl) hp
  | shape x => cases hwrite; exact .shapeWrite x v es hp
  | elem x k => cases hwrite; exact .elemWrite x k v es hp (hmapped x k rfl)

/-- Each step's next state is one of those. -/
theorem step_result (h : step s = .next t) : StepResult s t := by
  cases hp : s.pending with
  | nil =>
    rw [step_of_nil hp] at h
    cases h
    exact .idle hp
  | cons e es =>
    rw [step_of_cons hp] at h
    cases e with
    | read addr n =>
      obtain ⟨v, -, rfl⟩ := (perform_read_eq_next_iff ..).1 h
      exact .hostRead addr n v es hp
    | write addr n v => exact write_result hp h
    | reset =>
      cases h
      exact .resetInput es hp

/-- A step that writes a word to CMD is the word's whole execution (20_memory.md R58). -/
theorem step_of_commandWrite (hc : s.cfg.wellFormed = true) {w : Word} {es : List HostEvent}
    (hp : s.pending = .write s.cfg.base 4 w :: es) : step s = execute w { s with pending := es } := by
  simp [step_of_cons hp, memWrite, admitted_cmd hc, writeTarget]

end Sys2Proof.Machine

/-! ## STATUS steers no command (10_state.md R33) -/

namespace Sys2Proof.Machine

/-- The state with other values in STATUS. -/
def State.withStatus (s : State) (code : BitVec 3) (e : Bool) : State := { s with ecode := code, err := e }

/-- The state a command ends in when ERR was `e` before it: ERR is set if the command failed. -/
def State.recordErr (t : State) (e : Bool) : State := { t with err := e || decide (t.ecode ≠ 0) }

variable (s : State) (code : BitVec 3) (e : Bool)

@[simp] theorem State.withStatus_cfg : (s.withStatus code e).cfg = s.cfg := rfl
@[simp] theorem State.withStatus_shapeA : (s.withStatus code e).shapeA = s.shapeA := rfl
@[simp] theorem State.withStatus_shapeB : (s.withStatus code e).shapeB = s.shapeB := rfl
@[simp] theorem State.shape_withStatus (x : Buffer) : (s.withStatus code e).shape x = s.shape x := by cases x <;> rfl
@[simp] theorem State.buf_withStatus (x : Buffer) : (s.withStatus code e).buf x = s.buf x := by cases x <;> rfl
@[simp] theorem State.elem_withStatus (x : Buffer) (i : Nat) : (s.withStatus code e).elem x i = s.elem x i := by
  simp [State.elem]

@[simp] theorem State.shapeValid_withStatus (x : Buffer) : (s.withStatus code e).shapeValid x = s.shapeValid x := by
  simp [State.shapeValid]
@[simp] theorem State.inUse_withStatus (x : Buffer) : (s.withStatus code e).inUse x = s.inUse x := by
  simp [State.inUse]

@[simp] theorem readElem_withStatus : readElem (s.withStatus code e) = readElem s := by
  funext x i
  simp [readElem]
@[simp] theorem readElems_withStatus : readElems (s.withStatus code e) = readElems s := by
  funext x i n
  simp [readElems]
@[simp] theorem readRow_withStatus : readRow (s.withStatus code e) = readRow s := by
  funext x c i
  simp [readRow]
@[simp] theorem readLane_withStatus (lane : Byte → Byte → Sum) :
    readLane lane (s.withStatus code e) = readLane lane s := by
  funext k
  simp [readLane]

@[simp] theorem State.setGmr_withStatus (p : Byte) :
    (s.withStatus code e).setGmr p = (s.setGmr p).withStatus code e := rfl
@[simp] theorem State.setShape_withStatus (x : Buffer) (sh : Shape) :
    (s.withStatus code e).setShape x sh = (s.setShape x sh).withStatus code e := by cases x <;> rfl
@[simp] theorem State.writeElems_withStatus (x : Buffer) (i : Nat) (vs : List (BitVec x.width)) :
    (s.withStatus code e).writeElems x i vs = (s.writeElems x i vs).withStatus code e := by cases x <;> rfl
@[simp] theorem writeBitRows_withStatus (c i : Nat) (rows : List (List Byte)) :
    writeBitRows c (s.withStatus code e) i rows = (writeBitRows c s i rows).withStatus code e := by
  induction rows generalizing s i with
  | nil => rfl
  | cons row rows ih => exact ih (s.writeElems .t (i * (8 * c)) (bytesToBits row)) (i + 1)

/-- Ending a command overwrites the ECODE before it, and adds its outcome to the ERR before it. -/
@[simp] theorem State.succeed_withStatus : (s.withStatus code e).succeed = s.succeed.recordErr e := by
  simp [State.withStatus, State.succeed, State.recordErr]
@[simp] theorem State.fail_withStatus (f : CommandError) : (s.withStatus code e).fail f = (s.fail f).recordErr e := by
  cases f <;> simp [State.withStatus, State.fail, State.recordErr, CommandError.code]


@[simp] theorem mapNext_next (f : State → State) : mapNext f (.next s) = .next (f s) := rfl

variable {s code e}

/-- A command whose operands and result commute with STATUS ends in the same way. -/
theorem onOperands_withStatus {α : Type} {operands : Except Fault α} {result result' : α → State}
    (h : ∀ x, result' x = (result x).recordErr e) :
    onOperands operands result' = mapNext (State.recordErr · e) (onOperands operands result) := by
  cases operands with
  | error f => rfl
  | ok x => exact congrArg Host.Outcome.next (h x)

theorem succeed_store_withStatus (x : Buffer) (i : Nat) (vs : List (BitVec x.width)) (sh : Shape) :
    (((s.withStatus code e).writeElems x i vs).setShape x sh).succeed =
      ((s.writeElems x i vs).setShape x sh).succeed.recordErr e := by
  simp

theorem execB2bits_withStatus : execB2bits (s.withStatus code e) = mapNext (State.recordErr · e) (execB2bits s) := by
  unfold execB2bits
  rw [State.shapeValid_withStatus, State.inUse_withStatus, readElems_withStatus]
  split
  · exact onOperands_withStatus fun x => succeed_store_withStatus .t 0 _ _
  · simp

theorem execBits2b_withStatus : execBits2b (s.withStatus code e) = mapNext (State.recordErr · e) (execBits2b s) := by
  unfold execBits2b
  rw [State.shapeValid_withStatus, State.inUse_withStatus, readElems_withStatus]
  split
  · split
    · exact onOperands_withStatus fun x => succeed_store_withStatus .r 0 _ _
    · simp
  · simp

theorem execMbits_withStatus : execMbits (s.withStatus code e) = mapNext (State.recordErr · e) (execMbits s) := by
  unfold execMbits
  rw [State.shapeValid_withStatus, State.withStatus_shapeA, readRow_withStatus]
  split
  · refine onOperands_withStatus fun (rows : List (List Byte)) => ?_
    rw [writeBitRows_withStatus, State.setShape_withStatus, State.succeed_withStatus]
  · simp

theorem execFlat_withStatus (x : Buffer) :
    execFlat x (s.withStatus code e) = mapNext (State.recordErr · e) (execFlat x s) := by
  unfold execFlat
  rw [State.shapeValid_withStatus, State.inUse_withStatus]
  split <;> simp

theorem matrixCommand_withStatus (lane : Byte → Byte → Sum) :
    matrixCommand lane (s.withStatus code e) = mapNext (State.recordErr · e) (matrixCommand lane s) := by
  unfold matrixCommand
  rw [State.shapeValid_withStatus, State.shapeValid_withStatus, State.withStatus_shapeA, State.withStatus_shapeB,
    State.inUse_withStatus, readLane_withStatus]
  split
  · split
    · exact onOperands_withStatus fun y => succeed_store_withStatus .r 0 y _
    · simp
  · simp

variable (s code e)

theorem exec_withStatus (i : Instr) :
    exec i (s.withStatus code e) = mapNext (State.recordErr · e) (exec i s) := by
  cases i with
  | gmul a b => simp [exec, execGmul]
  | b2bits => exact execB2bits_withStatus
  | bits2b => exact execBits2b_withStatus
  | mbits => exact execMbits_withStatus
  | flat x => exact execFlat_withStatus x
  | mxor => exact matrixCommand_withStatus xorLane
  | msum => exact matrixCommand_withStatus sumLane

theorem execute_withStatus (w : Word) :
    execute w (s.withStatus code e) = mapNext (State.recordErr · e) (execute w s) := by
  cases hw : decode w with
  | error err => simp [execute_of_reject hw]
  | ok i => simp only [execute_of_decode hw, exec_withStatus]

end Sys2Proof.Machine

/-! ## The statements of 10_state.md -/

namespace Sys2Proof.Machine

/-- Settles O40, by the kinds of step: each writes only sequences that fit the buffer they go to, and ECODE only by a
command's end. -/
theorem stepKeepsTheInvariant : Obligations.StepKeepsTheInvariant := by
  intro s t hs h
  cases step_result h with
  | idle => exact hs
  | hostRead addr n v es => exact (hs.pending es).observe v
  | resetInput es => exact (hs.pending es).resetBlock
  | illegalWord w es => exact (hs.pending es).fail _
  | command w i es hp hw ht => exact ht.inv (hs.pending es)
  | statusWrite v es => exact (hs.pending es).writeStatus v
  | readOnlyWrite loc v es => exact hs.pending es
  | shapeWrite x v es => exact (hs.pending es).setShape x _
  | elemWrite x k v es hp hk => exact (hs.pending es).setElem hk _

/-- A shape register keeps bits 27:16 and 11:0 of a written word and reads the others as 0 (10_state.md R27). -/
theorem Shape.word_ofWord (v : Word) : (Shape.ofWord v).word = v &&& 0x0FFF0FFF := by
  apply BitVec.eq_of_getLsbD_eq
  intro k hk
  simp only [Shape.word, Shape.ofWord, BitVec.getLsbD_or, BitVec.getLsbD_shiftLeft, BitVec.getLsbD_setWidth,
    BitVec.getLsbD_extractLsb', BitVec.getLsbD_and]
  interval_cases k <;> simp

/-- A write to a target and the next read of it observe what the target holds after the write. -/
theorem performAll_write_read {s t : State} {addr : Nat} {loc : Target} {v r : Word}
    (hadm : admitted s.cfg addr 4 = some loc) (hwrite : writeTarget s v loc = .next t) (hcfg : t.cfg = s.cfg)
    (hobs : t.observed = s.observed) (hread : readTarget t loc = .ok r) :
    ∃ u, performAll [.write addr 4 v, .read addr 4] s = .next u ∧ u.observed = s.observed ++ [r] := by
  refine ⟨t.observe r, ?_, by simp [hobs]⟩
  simp [performAll, perform, memWrite, memRead, hadm, hwrite, hcfg, hread]

/-- Settles O12, by the address map and the read-after-write laws of shape registers and elements. -/
theorem valueWrittenIsReadBack : Obligations.ValueWrittenIsReadBack := by
  intro s v hc
  constructor
  · intro p hp
    rw [eq_of_mem_shapeOffsets hp]
    refine performAll_write_read (admitted_shape hc p.1) rfl (by simp) (by simp) ?_
    simp [readTarget, Shape.word_ofWord]
  · intro p hp i hi
    rw [eq_of_mem_elementWindows hp]
    have hread : readElem (s.setElem p.1 i (v.setWidth _)) p.1 i = .ok (v.setWidth _) :=
      (readElem_eq_ok_iff ..).2 (by simp [State.elem_setElem])
    refine performAll_write_read (admitted_elem hc hi) rfl (by simp) (by simp) ?_
    simp only [readTarget, hread, Except.ok.injEq]
    exact BitVec.eq_of_toNat_eq (by simp)

/-- Settles O38: running the word under other STATUS values is running it as before and then recording its failure. -/
theorem statusNeverSteersACommand : Obligations.StatusNeverSteersACommand := by
  intro s w code e
  refine ⟨fun t h => ?_, fun f h => ?_⟩
  · exact (execute_withStatus s code e w).trans (by rw [h]; rfl)
  · exact (execute_withStatus s code e w).trans (by rw [h]; rfl)

/-- Settles O44, by the kinds of step. -/
theorem configurationNeverChanges : Obligations.ConfigurationNeverChanges := by
  intro s t h
  cases step_result h with
  | command w i es hp hw ht => exact ht.cfg_eq
  | _ => simp

/-- A step that takes neither the reset input nor a GMUL leaves GMR alone. -/
theorem StepResult.gmr_eq {s t : State} (h : StepResult s t) (hreset : ∀ es, s.pending ≠ .reset :: es)
    (hgmul : ∀ w a b es, s.pending = .write s.cfg.base 4 w :: es → decode w ≠ .ok (.gmul a b)) : t.gmr = s.gmr := by
  cases h with
  | resetInput es hp => exact absurd hp (hreset es)
  | command w i es hp hw ht => exact ht.gmr_eq fun a b hi => hgmul w a b es hp (hi ▸ hw)
  | _ => simp

/-- Settles O45: a GMUL's step is its one outcome, and by the kinds of step no other but the reset input writes GMR. -/
theorem onlyGmulWritesGmr : Obligations.OnlyGmulWritesGmr := by
  refine ⟨fun _ => rfl, fun s => by simp [readTarget], fun s t hc h => ?_⟩
  by_cases hgmul : ∃ w a b es, s.pending = .write s.cfg.base 4 w :: es ∧ decode w = .ok (.gmul a b)
  · obtain ⟨w, a, b, es, hp, hw⟩ := hgmul
    rw [step_of_commandWrite hc hp, execute_of_decode hw] at h
    exact .inr (.inr ⟨w, a, b, es, hp, hw, by simp [execGmul_cases h]⟩)
  · by_cases hreset : ∃ es, s.pending = .reset :: es
    · obtain ⟨es, hp⟩ := hreset
      rw [step_of_cons hp] at h
      cases h
      exact .inr (.inl ⟨es, hp, rfl⟩)
    · refine .inl ⟨(step_result h).gmr_eq (fun es hp => hreset ⟨es, hp⟩) ?_, hgmul⟩
      exact fun w a b es hp hw => hgmul ⟨w, a, b, es, hp, hw⟩

/-- A word that reports an error changed STATUS only. -/
theorem execute_eq_fail {s t : State} {w : Word} (h : execute w s = .next t) (ht : t.ecode ≠ 0) : ∃ e, t = s.fail e := by
  rcases execute_result h with ⟨-, rfl⟩ | ⟨i, -, hi⟩
  · exact ⟨_, rfl⟩
  · exact hi.eq_fail ht

/-- Settles O46, by the kinds of step: only the reset input, an element write and a storing command touch elements. -/
theorem elementKeepsItsValueUntilWritten : Obligations.ElementKeepsItsValueUntilWritten := by
  intro s t hs h
  constructor
  · intro p hp k hne
    rw [eq_of_mem_elementWindows hp]
    cases step_result h with
    | resetInput es hp => exact .inl ⟨es, hp⟩
    | command w i es hpend hw ht =>
      obtain ⟨hi, hk, he⟩ := ht.of_elem_ne hs.config (by simpa using hne)
      exact .inr (.inr ⟨w, i, es, hpend, hw, hi, hk, he⟩)
    | elemWrite x j v es hpend hj =>
      obtain rfl : p.1 = x := by
        by_contra hx
        exact hne (by simp [State.elem_setElem_of_ne _ hx])
      obtain rfl : k = j := by
        by_contra hk
        exact hne (by simp [State.elem_setElem, hk])
      exact .inr (.inl ⟨v, es, by rw [hpend, Nat.add_assoc]⟩)
    | _ => simp at hne
  · intro w es hp ht
    rw [step_of_commandWrite hs.config hp] at h
    obtain ⟨e, rfl⟩ := execute_eq_fail h ht
    simp

/-- Settles O6: CMD is the target at BASE, and a write to it executes the word. -/
theorem commandWriteStepRunsDecodedCommand : Obligations.CommandWriteStepRunsDecodedCommand := by
  intro s w es hc hp
  rw [step_of_commandWrite hc hp]
  exact ⟨fun i hw => execute_of_decode hw _, fun e hw => execute_of_reject hw _⟩

end Sys2Proof.Machine
end

section
/-! PROOFS for 20_memory.md. What a command does depends on its operands only, so it commutes with every change of the fields
that belong to the host's side; the address map in the words of R55; and one statement of what an admitted access does. -/

/-! ## A command's effect is determined by its operands -/

namespace Sys2Proof.Machine

/-- How a command that goes on changes the state, with its operands already read. -/
inductive Effect where
  | fail (e : CommandError)
  | setGmr (p : Byte)
  | setShape (x : Buffer) (sh : Shape)
  | store (x : Buffer) (vs : List (BitVec x.width)) (sh : Shape)

/-- The state a command leaves by its effect: a failure in STATUS alone, and otherwise what it writes, and success. -/
def Effect.apply (s : State) : Effect → State
  | .fail e => s.fail e
  | .setGmr p => (s.setGmr p).succeed
  | .setShape x sh => (s.setShape x sh).succeed
  | .store x vs sh => ((s.writeElems x 0 vs).setShape x sh).succeed

/-- Two outcomes, from `s` and from `t`, by the same effect or by the same fault. -/
def SameEffect (s t : State) (o o' : Host.Outcome State Fault Refusal) : Prop :=
  ∃ r : Except Fault Effect, o = onOperands r (Effect.apply s) ∧ o' = onOperands r (Effect.apply t)

/-- Two states that a command cannot tell apart: the shapes it checks, the elements it may read, and CAP are the same. -/
structure SameOperands (i : Instr) (s t : State) : Prop where
  cap : t.cfg.cap = s.cfg.cap
  shape : ∀ x ∈ i.checks, t.shape x = s.shape x
  elem : ∀ x ∈ i.reads, t.elem x = s.elem x

section
variable {s t : State}

theorem capacity_congr {c d : Config} (h : d.cap = c.cap) (x : Buffer) : x.capacity d = x.capacity c := by
  cases x <;> simp [Buffer.capacity, h]

theorem shapeValid_congr {x : Buffer} (hcap : t.cfg.cap = s.cfg.cap) (hshape : t.shape x = s.shape x) :
    t.shapeValid x = s.shapeValid x := by
  simp only [State.shapeValid, hshape, capacity_congr hcap]

theorem inUse_congr {x : Buffer} (hshape : t.shape x = s.shape x) : t.inUse x = s.inUse x := by
  simp only [State.inUse, hshape]

theorem readElem_congr {x : Buffer} (h : t.elem x = s.elem x) : readElem t x = readElem s x := by
  funext i
  simp only [readElem, h]

theorem readElems_congr {x : Buffer} (h : t.elem x = s.elem x) : readElems t x = readElems s x := by
  funext i n
  simp only [readElems, readElem_congr h]

theorem readRow_congr {x : Buffer} (h : t.elem x = s.elem x) : readRow t x = readRow s x := by
  funext c i
  simp only [readRow, readElems_congr h]

theorem readLane_congr (ha : t.elem .a = s.elem .a) (hb : t.elem .b = s.elem .b) (lane : Byte → Byte → Sum) :
    readLane lane t = readLane lane s := by
  funext k
  simp only [readLane, readElem_congr ha, readElem_congr hb]

theorem SameEffect.of_fail (s t : State) (e : CommandError) : SameEffect s t (.next (s.fail e)) (.next (t.fail e)) :=
  ⟨.ok (.fail e), rfl, rfl⟩

/-- Commands that read the same operands and turn them into the same effect. -/
theorem SameEffect.of_onOperands {α : Type} {operands : Except Fault α} {result result' : α → State} (effect : α → Effect)
    (h : ∀ x, operands = .ok x → result x = (effect x).apply s ∧ result' x = (effect x).apply t) :
    SameEffect s t (onOperands operands result) (onOperands operands result') := by
  cases operands with
  | error f => exact ⟨.error f, rfl, rfl⟩
  | ok x =>
    obtain ⟨hs, ht⟩ := h x rfl
    exact ⟨.ok (effect x), congrArg Host.Outcome.next hs, congrArg Host.Outcome.next ht⟩

theorem execB2bits_sameEffect (h : SameOperands .b2bits s t) : SameEffect s t (execB2bits s) (execB2bits t) := by
  have hshape := h.shape .a (by decide)
  unfold execB2bits
  rw [shapeValid_congr h.cap hshape, inUse_congr hshape, readElems_congr (h.elem .a (by decide))]
  split
  · exact .of_onOperands (fun x => .store .t (bytesToBits x) _) fun x _ => ⟨rfl, rfl⟩
  · exact .of_fail s t _

theorem execBits2b_sameEffect (h : SameOperands .bits2b s t) : SameEffect s t (execBits2b s) (execBits2b t) := by
  have hshape := h.shape .t (by decide)
  unfold execBits2b
  rw [shapeValid_congr h.cap hshape, inUse_congr hshape, readElems_congr (h.elem .t (by decide))]
  split
  · split
    · exact .of_onOperands (fun x => .store .r ((packGroups x).map fun y => y.setWidth 9) _) fun x _ => ⟨rfl, rfl⟩
    · exact .of_fail s t _
  · exact .of_fail s t _

/-- The rows MBITS reads have the operand's column count. -/
theorem length_of_mem_rows {x : Buffer} {c i n : Nat} {rows : List (List (BitVec x.width))}
    (h : collect (readRow s x c) i n = .ok rows) : ∀ row ∈ rows, row.length = c := by
  intro row hmem
  obtain ⟨k, hk, rfl⟩ := List.getElem_of_mem hmem
  exact ((readElems_eq_ok_iff ..).1 (((collect_eq_ok_iff ..).1 h).2 k hk)).1

theorem execMbits_sameEffect (h : SameOperands .mbits s t) : SameEffect s t (execMbits s) (execMbits t) := by
  have hshape : t.shapeA = s.shapeA := h.shape .a (by decide)
  unfold execMbits
  rw [shapeValid_congr (x := .a) h.cap hshape, hshape, readRow_congr (h.elem .a (by decide))]
  split
  · refine .of_onOperands (fun rows : List (List Byte) => .store .t (rows.flatMap bytesToBits)
      (Shape.ofCounts s.shapeA.rows.toNat (8 * s.shapeA.cols.toNat))) fun rows hrows => ?_
    have hlen := length_of_mem_rows hrows
    simp only [writeBitRows_eq_writeElems hlen, Nat.zero_mul]
    exact ⟨rfl, rfl⟩
  · exact .of_fail s t _

theorem execFlat_sameEffect {x : Buffer} (h : SameOperands (.flat x) s t) :
    SameEffect s t (execFlat x s) (execFlat x t) := by
  have hshape := h.shape x (List.mem_singleton_self x)
  unfold execFlat
  rw [shapeValid_congr h.cap hshape, inUse_congr hshape]
  split
  · exact ⟨.ok (.setShape x _), rfl, rfl⟩
  · exact .of_fail s t _

theorem matrixCommand_sameEffect (h : SameOperands .mxor s t) (lane : Byte → Byte → Sum) :
    SameEffect s t (matrixCommand lane s) (matrixCommand lane t) := by
  have ha : t.shapeA = s.shapeA := h.shape .a (by decide)
  have hb : t.shapeB = s.shapeB := h.shape .b (by decide)
  unfold matrixCommand
  rw [shapeValid_congr (x := .a) h.cap ha, shapeValid_congr (x := .b) h.cap hb, ha, hb, inUse_congr (x := .a) ha,
    readLane_congr (h.elem .a (by decide)) (h.elem .b (by decide))]
  split
  · split
    · exact .of_onOperands (fun y => .store .r y s.shapeA) fun y _ => ⟨rfl, rfl⟩
    · exact .of_fail s t _
  · exact .of_fail s t _

/-- A command does the same to two states it cannot tell apart. -/
theorem exec_sameEffect {i : Instr} (h : SameOperands i s t) : SameEffect s t (exec i s) (exec i t) := by
  cases i with
  | gmul a b => exact ⟨.ok (.setGmr (gmul a b)), rfl, rfl⟩
  | b2bits => exact execB2bits_sameEffect h
  | bits2b => exact execBits2b_sameEffect h
  | mbits => exact execMbits_sameEffect h
  | flat x => exact execFlat_sameEffect h
  | mxor => exact matrixCommand_sameEffect h xorLane
  | msum => exact matrixCommand_sameEffect ⟨h.cap, h.shape, h.elem⟩ sumLane

end

/-! ## The fields of the host's side steer nothing -/

/-- The state with another configuration and other accesses pending. -/
def State.rehost (f : Config → Config) (g : List HostEvent → List HostEvent) (s : State) : State :=
  { s with cfg := f s.cfg, pending := g s.pending }

section
variable (f : Config → Config) (g : List HostEvent → List HostEvent) (s : State)

@[simp] theorem State.rehost_cfg : (s.rehost f g).cfg = f s.cfg := rfl
@[simp] theorem State.rehost_gmr : (s.rehost f g).gmr = s.gmr := rfl
@[simp] theorem State.rehost_statusWord : (s.rehost f g).statusWord = s.statusWord := rfl
@[simp] theorem State.shape_rehost (x : Buffer) : (s.rehost f g).shape x = s.shape x := by cases x <;> rfl
@[simp] theorem State.buf_rehost (x : Buffer) : (s.rehost f g).buf x = s.buf x := by cases x <;> rfl
@[simp] theorem State.elem_rehost (x : Buffer) : (s.rehost f g).elem x = s.elem x := by
  funext i
  simp [State.elem]

@[simp] theorem State.setShape_rehost (x : Buffer) (sh : Shape) :
    (s.rehost f g).setShape x sh = (s.setShape x sh).rehost f g := by cases x <;> rfl
@[simp] theorem State.setBuf_rehost (x : Buffer) (m : Memory x.width) :
    (s.rehost f g).setBuf x m = (s.setBuf x m).rehost f g := by cases x <;> rfl
@[simp] theorem State.setElem_rehost (x : Buffer) (i : Nat) (v : BitVec x.width) :
    (s.rehost f g).setElem x i v = (s.setElem x i v).rehost f g := by simp [State.setElem]
@[simp] theorem State.writeElems_rehost (x : Buffer) (i : Nat) (vs : List (BitVec x.width)) :
    (s.rehost f g).writeElems x i vs = (s.writeElems x i vs).rehost f g := by simp [State.writeElems]
@[simp] theorem State.writeStatus_rehost (v : Word) :
    (s.rehost f g).writeStatus v = (s.writeStatus v).rehost f g := by
  unfold State.writeStatus
  split <;> rfl

theorem Effect.apply_rehost (d : Effect) : d.apply (s.rehost f g) = (d.apply s).rehost f g := by
  cases d with
  | fail e => rfl
  | setGmr p => rfl
  | setShape x sh => simp only [Effect.apply, State.setShape_rehost]; rfl
  | store x vs sh => simp only [Effect.apply, State.writeElems_rehost, State.setShape_rehost]; rfl

variable {f} {g} (hf : ∀ c, (f c).cap = c.cap)
include hf

theorem exec_rehost (i : Instr) : exec i (s.rehost f g) = mapNext (State.rehost f g) (exec i s) := by
  have h : SameOperands i s (s.rehost f g) := ⟨hf s.cfg, fun x _ => by simp, fun x _ => by simp⟩
  obtain ⟨r, hs, ht⟩ := exec_sameEffect h
  rw [hs, ht]
  cases r with
  | error e => rfl
  | ok d => exact congrArg Host.Outcome.next (d.apply_rehost f g s)

theorem execute_rehost (w : Word) : execute w (s.rehost f g) = mapNext (State.rehost f g) (execute w s) := by
  cases hw : decode w with
  | error e => rw [execute_of_reject hw, execute_of_reject hw]; rfl
  | ok i => rw [execute_of_decode hw, execute_of_decode hw, exec_rehost s hf]

theorem readTarget_rehost (loc : Target) : readTarget (s.rehost f g) loc = readTarget s loc := by
  cases loc with
  | caps => simp [readTarget, capsWord, hf]
  | elem x i => simp only [readTarget, readElem_congr (State.elem_rehost f g s x)]
  | _ => simp [readTarget]

theorem writeTarget_rehost (v : Word) (loc : Target) :
    writeTarget (s.rehost f g) v loc = mapNext (State.rehost f g) (writeTarget s v loc) := by
  cases loc with
  | cmd => exact execute_rehost s hf v
  | _ => simp [writeTarget]

/-- CAP is all of the configuration that the address map depends on, apart from BASE. -/
theorem decodeOffset_rehost (c : Config) (off : Nat) : decodeOffset (f c) off = decodeOffset c off := by
  simp only [decodeOffset, elementOf, capacity_congr (hf c)]

variable (hbase : ∀ c, (f c).base = c.base)
include hbase

theorem admitted_rehost (c : Config) (addr n : Nat) : admitted (f c) addr n = admitted c addr n := by
  simp only [admitted, hbase, decodeOffset_rehost hf]

/-- Performing an event commutes with every change of the host's side that keeps CAP and BASE. -/
theorem perform_rehost (e : HostEvent) :
    perform e (s.rehost f g) = mapNext (State.rehost f g) (perform e s) := by
  cases e with
  | read addr n =>
    have hread : memRead (s.rehost f g) addr n = memRead s addr n := by
      simp only [memRead, State.rehost_cfg, admitted_rehost hf hbase, readTarget_rehost s hf]
    simp only [perform, hread]
    cases memRead s addr n <;> rfl
  | write addr n v =>
    simp only [perform_write, memWrite, State.rehost_cfg, admitted_rehost hf hbase]
    cases admitted s.cfg addr n with
    | none => rfl
    | some loc => exact writeTarget_rehost s hf v loc
  | reset => rfl

end

/-! ## Where the window sits (R50) -/

section
variable {s : State}

/-- Where the base is aligned, an access given by offset reaches what its offset names, wherever the window sits. -/
theorem admitted_at_base {c : Config} (hbase : c.base % 0x4000 = 0) (off n : Nat) :
    admitted c (c.base + off) n = if n = 4 ∧ off % 4 = 0 then decodeOffset c off else none := by
  have hal : (c.base + off) % 4 = off % 4 := by omega
  simp [admitted, hal]

theorem decodeOffset_placed (c : Config) (b off : Nat) : decodeOffset { c with base := b } off = decodeOffset c off :=
  decodeOffset_rehost (f := fun c => { c with base := b }) (fun _ => rfl) c off

theorem admitted_placed {c : Config} {b : Nat} (hc : c.base % 0x4000 = 0) (hb : b % 0x4000 = 0) (off n : Nat) :
    admitted { c with base := b } (b + off) n = admitted c (c.base + off) n := by
  rw [admitted_at_base hc, ← decodeOffset_placed c b]
  exact admitted_at_base (c := { c with base := b }) hb off n

/-- The second outcome goes on where the first does, in the state changed by `φ`, and faults where it does. -/
def SameOutcomeUpTo (φ : State → State) (o o' : Host.Outcome State Fault Refusal) : Prop :=
  (∀ t, o = .next t → o' = .next (φ t)) ∧ ∀ f, o = .fault f → ∃ g, o' = .fault g

theorem SameOutcomeUpTo.of_mapNext (φ : State → State) (o : Host.Outcome State Fault Refusal) :
    SameOutcomeUpTo φ o (mapNext φ o) := by
  cases o <;> simp [SameOutcomeUpTo, mapNext]

theorem SameOutcomeUpTo.of_fault (φ : State → State) (f g : Fault) : SameOutcomeUpTo φ (.fault f) (.fault g) := by
  simp [SameOutcomeUpTo]

/-- An event given by offset has the same outcome in a window at another aligned base. -/
theorem perform_placedAt (e : HostEvent) (es : List HostEvent) {b : Nat} (hs : s.cfg.base % 0x4000 = 0)
    (hb : b % 0x4000 = 0) :
    SameOutcomeUpTo (·.placedAt b es) (perform (e.atBase s.cfg.base) s) (perform (e.atBase b) (s.placedAt b es)) := by
  have hcap : ∀ c : Config, ({ c with base := b } : Config).cap = c.cap := fun _ => rfl
  cases e with
  | read off n =>
    have hadm : admitted (s.placedAt b es).cfg (b + off) n = _ := admitted_placed hs hb off n
    simp only [HostEvent.atBase, perform, memRead, hadm]
    cases admitted s.cfg (s.cfg.base + off) n with
    | none => exact .of_fault ..
    | some loc =>
      have hread : readTarget (s.placedAt b es) loc = readTarget s loc :=
        readTarget_rehost (g := fun _ => es.map (HostEvent.atBase b)) s hcap loc
      simp only [hread]
      cases readTarget s loc with
      | error f => exact .of_fault ..
      | ok v => exact .of_mapNext _ (.next (s.observe v))
  | write off n v =>
    have hadm : admitted (s.placedAt b es).cfg (b + off) n = _ := admitted_placed hs hb off n
    simp only [HostEvent.atBase, perform_write, memWrite, hadm]
    cases admitted s.cfg (s.cfg.base + off) n with
    | none => exact .of_fault ..
    | some loc =>
      have hwrite : writeTarget (s.placedAt b es) v loc = mapNext (·.placedAt b es) (writeTarget s v loc) :=
        writeTarget_rehost (g := fun _ => es.map (HostEvent.atBase b)) s hcap v loc
      simp only [hwrite]
      exact .of_mapNext ..
  | reset => exact .of_mapNext _ (.next s.resetBlock)

end

/-! ## A run takes the pending accesses in order (R62) -/

/-- What is pending after an event does not matter to it. -/
theorem perform_pending (e : HostEvent) (es : List HostEvent) (s : State) :
    perform e { s with pending := es } = mapNext (fun t => { t with pending := es }) (perform e s) :=
  perform_rehost (f := id) (g := fun _ => es) s (fun _ => rfl) (fun _ => rfl) e

/-- No event adds an access or takes one off. -/
theorem pending_of_perform {e : HostEvent} {s t : State} (h : perform e s = .next t) : t.pending = s.pending := by
  have hself : perform e s = _ := perform_pending e s.pending s
  rw [h, mapNext_next] at hself
  rw [Host.Outcome.next.inj hself]

theorem run_eq_performAll (es : List HostEvent) {s : State} (h : s.pending = []) :
    Host.Core.run Sys2Proof.core es.length { s with pending := es } = performAll es s := by
  induction es generalizing s with
  | nil => exact congrArg Host.Outcome.next (by rw [← h])
  | cons e es ih =>
    have hstep : Sys2Proof.core.step { s with pending := e :: es } = _ := perform_pending e es s
    simp only [List.length_cons, Host.Core.run, performAll, hstep]
    cases hp : perform e s with
    | next t => exact ih ((pending_of_perform hp).trans h)
    | fault f => rfl
    | refused r => rfl

/-! ## Repeating a command (R59) -/

section
variable {s t : State}

/-- Writing a sequence again where it already stands changes nothing. -/
theorem Memory.writeFrom_writeFrom {w : Nat} {m : Memory w} (h : Memory.wf m) (i : Nat) (vs : List (BitVec w)) :
    Memory.writeFrom (Memory.writeFrom m i vs) i vs = Memory.writeFrom m i vs := by
  have hwf := Memory.wf_writeFrom vs h i
  refine Memory.ext_of_wf (Memory.wf_writeFrom vs hwf i) hwf fun j => ?_
  rw [Memory.read_writeFrom vs (Memory.writeFrom m i vs), Memory.read_writeFrom vs m]
  split <;> rfl

/-- An effect taken twice is the effect taken once. -/
theorem Effect.apply_apply (hs : s.Inv) (d : Effect) : d.apply (d.apply s) = d.apply s := by
  cases d with
  | fail e => rfl
  | setGmr p => rfl
  | setShape x sh => cases x <;> rfl
  | store x vs sh =>
    have hmem := congrArg (fun m => ((s.setBuf x m).setShape x sh).succeed)
      (Memory.writeFrom_writeFrom (hs.bufferWf x).1 0 vs)
    cases x <;> exact hmem

/-- The bounds an allowed configuration puts on every element count: at least 1, and in the range of a shape register. -/
theorem capacity_bounds {c : Config} (hc : c.wellFormed = true) (x : Buffer) : 1 ≤ x.capacity c ∧ x.capacity c < 4096 := by
  obtain ⟨hpos, hcap, -⟩ := (Config.wellFormed_iff c).1 hc
  cases x <;> simp only [Buffer.capacity] <;> omega

/-- Counts that fit the capacity make a valid shape. -/
theorem Shape.valid_ofCounts {n r c : Nat} (hn : n < 4096) (hr : r ≤ n) (hc : c ≤ n) (hrc : r * c ≤ n) :
    (Shape.ofCounts r c).valid n = true := by
  have hr' : r % 4096 = r := Nat.mod_eq_of_lt (by omega)
  have hc' : c % 4096 = c := Nat.mod_eq_of_lt (by omega)
  simp [Shape.valid_iff, Shape.ofCounts, hr', hc', hr, hc, hrc]

/-- FLAT leaves one row of as many elements, on which it does the same again (42_repack.md R137). -/
theorem execFlat_again {x : Buffer} (hs : s.Inv) (hv : s.shapeValid x = true)
    (ht : t = (Effect.setShape x (Shape.ofCounts 1 (s.inUse x))).apply s) : execFlat x t = .next t := by
  obtain ⟨hpos, hlt⟩ := capacity_bounds hs.config x
  have hn := inUse_le_of_shapeValid hv
  have hrow : t.shape x = Shape.ofCounts 1 (s.inUse x) := by simp [ht, Effect.apply]
  have hcount : t.inUse x = s.inUse x := by
    rw [State.inUse, hrow, Shape.ofCounts_count (by omega) (by omega), Nat.one_mul]
  have hvalid : t.shapeValid x = true := by
    have hcfg : t.cfg = s.cfg := by simp [ht, Effect.apply]
    rw [State.shapeValid, hrow, hcfg]
    exact Shape.valid_ofCounts hlt hpos hn (by omega)
  have hagain : execFlat x t = .next ((Effect.setShape x (Shape.ofCounts 1 (t.inUse x))).apply t) := if_pos hvalid
  rw [hagain, hcount, ht, Effect.apply_apply hs]

/-- No command but FLAT changes an operand of its own. -/
theorem CommandResult.sameOperands {i : Instr} (h : CommandResult i s t) :
    SameOperands i s t ∨ ∃ x, i = .flat x ∧ s.shapeValid x = true ∧
      t = (Effect.setShape x (Shape.ofCounts 1 (s.inUse x))).apply s := by
  cases h with
  | failed e => exact .inl ⟨rfl, by simp, fun x _ => funext fun k => by simp⟩
  | multiplied a b => exact .inl ⟨rfl, by simp, fun x _ => funext fun k => by simp⟩
  | flattened x hi hv => exact .inr ⟨x, hi, hv, rfl⟩
  | stored x vs sh n hw =>
    have hchecks : ∀ y ∈ i.checks, y ≠ x := by cases i <;> cases hw <;> decide
    have hreads : ∀ y ∈ i.reads, y ≠ x := by cases i <;> cases hw <;> decide
    refine .inl ⟨by simp, fun y hy => by simp [hchecks y hy], fun y hy => funext fun k => ?_⟩
    simp [State.elem_writeElems_of_ne _ (hreads y hy)]

theorem exec_again {i : Instr} (hs : s.Inv) (h : exec i s = .next t) : exec i t = .next t := by
  rcases (exec_result h).sameOperands with hsame | ⟨x, rfl, hv, ht⟩
  · obtain ⟨r, hr, hr'⟩ := exec_sameEffect hsame
    rw [h] at hr
    obtain ⟨d, rfl, rfl⟩ := (onOperands_eq_next_iff ..).1 hr.symm
    rw [hr', onOperands_ok, d.apply_apply hs]
  · exact execFlat_again hs hv ht

end

/-! ## Which accesses are admitted (R55) -/

section
variable {c : Config} {addr n : Nat}

/-- Each register's offset is one of the eight of R55. -/
theorem registerAt_isSome_iff (off : Nat) : (∃ loc, registerAt off = some loc) ↔
    off ∈ [0x000, 0x004, 0x008, 0x00C, 0x010, 0x014, 0x018, 0x01C] := by
  constructor
  · rintro ⟨loc, h⟩
    obtain ⟨-, hal, hlow⟩ := registerAt_eq_some h
    simp only [List.mem_cons, List.not_mem_nil]
    omega
  · simp only [List.mem_cons, List.not_mem_nil, or_false]
    rintro (rfl | rfl | rfl | rfl | rfl | rfl | rfl | rfl) <;> exact ⟨_, rfl⟩

/-- An offset reaches a target exactly when it is a register's or a mapped element's, in the words of R51. -/
theorem decodeOffset_isSome_iff (hc : c.wellFormed = true) (off : Nat) : (∃ loc, decodeOffset c off = some loc) ↔
    off ∈ [0x000, 0x004, 0x008, 0x00C, 0x010, 0x014, 0x018, 0x01C] ∨
      ∃ x : Buffer, ∃ i < x.capacity c, off = windowOffset x + 4 * i := by
  rw [← registerAt_isSome_iff]
  constructor
  · rintro ⟨loc, h⟩
    rcases (decodeOffset_eq_some_iff ..).1 h with h | ⟨x, i, -, hoff, -, hi⟩
    · exact .inl ⟨loc, h⟩
    · exact .inr ⟨x, i, hi, hoff⟩
  · rintro (⟨loc, h⟩ | ⟨x, i, hi, rfl⟩)
    · exact ⟨loc, (decodeOffset_eq_some_iff ..).2 (.inl h)⟩
    · exact ⟨_, decodeOffset_elem hc hi⟩

theorem exists_buffer_iff (P : Buffer → Prop) : (∃ x, P x) ↔ P .a ∨ P .b ∨ P .r ∨ P .t := by
  constructor
  · rintro ⟨x, h⟩
    cases x <;> simp [h]
  · rintro (h | h | h | h) <;> exact ⟨_, h⟩

/-- The decoder admits exactly the accesses that R55 admits. -/
theorem admitted_isSome_iff (hc : c.wellFormed = true) :
    (∃ loc, admitted c addr n = some loc) ↔ AdmittedAccess c addr n := by
  have hmap := decodeOffset_isSome_iff hc
  simp only [exists_buffer_iff, Buffer.capacity, windowOffset] at hmap
  simp only [AdmittedAccess, admitted_eq_some_iff, exists_and_left, and_assoc, ← hmap]
  refine and_congr_right fun _ => and_congr_right fun _ => ?_
  constructor
  · rintro ⟨hle, h⟩
    exact ⟨addr - c.base, by omega, h⟩
  · rintro ⟨off, rfl, h⟩
    exact ⟨by omega, by rwa [Nat.add_sub_cancel_left]⟩

theorem admitted_eq_none_iff (hc : c.wellFormed = true) : admitted c addr n = none ↔ ¬ AdmittedAccess c addr n := by
  rw [← admitted_isSome_iff hc]
  cases admitted c addr n <;> simp

end

/-! ## The faults of an access (R55, 10_state.md R32) -/

section
variable {s : State} {f : Fault}

/-- The one fault of a command: an unwritten element of a buffer it reads. -/
def ReadFault (i : Instr) (s : State) (f : Fault) : Prop :=
  ∃ x ∈ i.reads, ∃ k, s.elem x k = none ∧ f = .unwrittenElement x k

theorem readElems_fault {i : Instr} {x : Buffer} {j n : Nat} (hx : x ∈ i.reads) (h : readElems s x j n = .error f) :
    ReadFault i s f := by
  obtain ⟨k, -, hk⟩ := readElems_eq_error h
  exact ⟨x, hx, j + k, hk⟩

theorem matrixCommand_fault {i : Instr} {lane : Byte → Byte → Sum} (ha : .a ∈ i.reads) (hb : .b ∈ i.reads)
    (h : matrixCommand lane s = .fault f) : ReadFault i s f := by
  unfold matrixCommand at h
  split at h
  · split at h
    · obtain ⟨k, -, hk⟩ := collect_eq_error ((onOperands_eq_fault_iff ..).1 h)
      rcases readLane_eq_error hk with hk | hk
      · exact ⟨.a, ha, _, hk⟩
      · exact ⟨.b, hb, _, hk⟩
    · cases h
  · cases h

theorem exec_fault {i : Instr} (h : exec i s = .fault f) : ReadFault i s f := by
  cases i with
  | gmul a b => cases h
  | b2bits =>
    simp only [exec, execB2bits] at h
    split at h
    · exact readElems_fault (x := .a) (by decide) ((onOperands_eq_fault_iff ..).1 h)
    · cases h
  | bits2b =>
    simp only [exec, execBits2b] at h
    split at h
    · split at h
      · exact readElems_fault (x := .t) (by decide) ((onOperands_eq_fault_iff ..).1 h)
      · cases h
    · cases h
  | mbits =>
    simp only [exec, execMbits] at h
    split at h
    · obtain ⟨k, -, hk⟩ := collect_eq_error ((onOperands_eq_fault_iff ..).1 h)
      exact readElems_fault (x := .a) (by decide) hk
    · cases h
  | flat x =>
    simp only [exec, execFlat] at h
    split at h <;> cases h
  | mxor => exact matrixCommand_fault (by decide) (by decide) h
  | msum => exact matrixCommand_fault (by decide) (by decide) h

theorem execute_fault {w : Word} (h : execute w s = .fault f) : ∃ i, decode w = .ok i ∧ ReadFault i s f := by
  cases hw : decode w with
  | error e =>
    rw [execute_of_reject hw] at h
    cases h
  | ok i =>
    rw [execute_of_decode hw] at h
    exact ⟨i, rfl, exec_fault h⟩

theorem readTarget_fault {loc : Target} (h : readTarget s loc = .error f) :
    ∃ x k, loc = .elem x k ∧ s.elem x k = none ∧ f = .unwrittenElement x k := by
  cases loc with
  | elem x k =>
    simp only [readTarget] at h
    cases hread : readElem s x k with
    | ok v => simp [hread] at h
    | error g =>
      obtain rfl : g = f := by simpa [hread] using h
      exact ⟨x, k, rfl, (readElem_eq_error_iff ..).1 hread⟩
  | _ => cases h

theorem writeTarget_fault {v : Word} {loc : Target} (h : writeTarget s v loc = .fault f) :
    ∃ i, loc = .cmd ∧ decode v = .ok i ∧ ReadFault i s f := by
  cases loc with
  | cmd =>
    obtain ⟨i, hi⟩ := execute_fault h
    exact ⟨i, rfl, hi⟩
  | _ => cases h

/-! What a step does with an access, by the target it reaches. -/

variable {es : List HostEvent} {addr n : Nat} {v w : Word} {loc : Target}

theorem step_read_of_not_admitted (hp : s.pending = .read addr n :: es) (hadm : admitted s.cfg addr n = none) :
    step s = .fault (.busError addr) := by
  simp [step_of_cons hp, perform, memRead, hadm]

theorem step_write_of_not_admitted (hp : s.pending = .write addr n v :: es) (hadm : admitted s.cfg addr n = none) :
    step s = .fault (.busError addr) := by
  simp [step_of_cons hp, memWrite, hadm]

theorem readTarget_pending (s : State) (es : List HostEvent) (loc : Target) :
    readTarget { s with pending := es } loc = readTarget s loc :=
  readTarget_rehost (f := id) (g := fun _ => es) s (fun _ => rfl) loc

theorem step_read_of_ok (hp : s.pending = .read addr n :: es) (hadm : admitted s.cfg addr n = some loc)
    (hread : readTarget s loc = .ok w) : step s = .next (State.observe { s with pending := es } w) := by
  simp [step_of_cons hp, perform, memRead, hadm, readTarget_pending, hread]

theorem step_read_of_error (hp : s.pending = .read addr n :: es) (hadm : admitted s.cfg addr n = some loc)
    (hread : readTarget s loc = .error f) : step s = .fault f := by
  simp [step_of_cons hp, perform, memRead, hadm, readTarget_pending, hread]

theorem step_write_of_admitted (hp : s.pending = .write addr n v :: es) (hadm : admitted s.cfg addr n = some loc) :
    step s = writeTarget { s with pending := es } v loc := by
  simp [step_of_cons hp, memWrite, hadm]

end

/-! ## What a host read returns (R53) -/

/-- Two fields of a register that do not overlap, as one number. -/
theorem shiftLeft_or_eq_ofNat {m n k : Nat} (a : BitVec m) (b : BitVec n) (hn : n ≤ k) :
    a.setWidth 32 <<< k ||| b.setWidth 32 = BitVec.ofNat 32 (a.toNat * 2 ^ k + b.toNat) := by
  have hb : b.toNat < 2 ^ k := b.isLt.trans_le (Nat.pow_le_pow_right (by decide) hn)
  rw [← Nat.shiftLeft_eq, Nat.shiftLeft_add_eq_or_of_lt hb, BitVec.ofNat_or, BitVec.ofNat_toNat]
  congr 1
  exact BitVec.eq_of_toNat_eq (by simp [Nat.shiftLeft_eq])

theorem State.statusWord_eq (s : State) :
    s.statusWord = BitVec.ofNat 32 ((if s.err then 256 else 0) + s.ecode.toNat) := by
  rw [State.statusWord, shiftLeft_or_eq_ofNat _ _ (by decide)]
  cases s.err <;> rfl

theorem Shape.word_eq (sh : Shape) : sh.word = BitVec.ofNat 32 (sh.rows.toNat * 65536 + sh.cols.toNat) :=
  shiftLeft_or_eq_ofNat sh.rows sh.cols (by decide)

theorem capsWord_eq {c : Config} (hc : c.wellFormed = true) : capsWord c = BitVec.ofNat 32 c.cap := by
  obtain ⟨-, hcap, -⟩ := (Config.wellFormed_iff c).1 hc
  exact BitVec.setWidth_ofNat_of_le_of_lt (by decide) (by omega)

/-! ## What a host write stores (R54) -/

theorem Shape.ofWord_eq (v : Word) :
    Shape.ofWord v = ⟨BitVec.ofNat 12 (v.toNat / 65536), BitVec.ofNat 12 v.toNat⟩ := by
  simp only [Shape.ofWord, BitVec.extractLsb', Nat.shiftRight_eq_div_pow, Nat.pow_zero, Nat.div_one, Nat.reducePow]

/-- A write of STATUS clears ERR where bit 8 is 1, and does no more (10_state.md R24). -/
theorem State.writeStatus_eq (s : State) (v : Word) : s.writeStatus v = { s with err := s.err && !v.getLsbD 8 } := by
  unfold State.writeStatus
  cases v.getLsbD 8 <;> simp

theorem State.setElem_eq (s : State) (x : Buffer) (i : Nat) (v : BitVec x.width) :
    let t := s.setElem x i v
    t = { s with bufA := t.bufA, bufB := t.bufB, bufT := t.bufT, bufR := t.bufR } := by
  cases x <;> rfl

/-- An element write touches that element only. -/
theorem State.elem_setElem_of_other (s : State) {x y : Buffer} {i j : Nat} (h : y ≠ x ∨ j ≠ i) (v : BitVec x.width) :
    (s.setElem x i v).elem y j = s.elem y j := by
  by_cases hy : y = x
  · subst hy
    rw [State.elem_setElem, if_neg (h.resolve_left (absurd rfl))]
  · exact s.elem_setElem_of_ne hy i j v

/-! ## The statements of 20_memory.md -/

/-- Settles O11: an address reaches one target, and two mapped elements are different targets. -/
theorem eachElementHasItsOwnWord : Obligations.EachElementHasItsOwnWord := by
  have hreach : ∀ c : Config, c.wellFormed = true → ∀ p ∈ elementWindows, ∀ i < p.1.capacity c,
      admitted c (c.base + p.2 + 4 * i) 4 = some (.elem p.1 i) := fun c hc p hp i hi => by
    rw [eq_of_mem_elementWindows hp]
    exact admitted_elem hc hi
  intro c hc p hp i hi
  refine ⟨hreach c hc p hp i hi, fun q hq j hj haddr => ?_⟩
  have hsame := hreach c hc p hp i hi
  rw [haddr, hreach c hc q hq j hj] at hsame
  obtain ⟨hx, rfl⟩ := Target.elem.inj (Option.some.inj hsame)
  exact ⟨Prod.ext hx.symm (by rw [eq_of_mem_elementWindows hp, eq_of_mem_elementWindows hq, hx]), rfl⟩

/-- Settles O10: an access that is not admitted is a BusError, and an admitted one can only end in the fault of an unwritten
element. -/
theorem busErrorExactlyWhenNotAdmitted : Obligations.BusErrorExactlyWhenNotAdmitted := by
  intro s es addr n v hc hp
  rw [← admitted_eq_none_iff hc]
  cases hadm : admitted s.cfg addr n with
  | none =>
    rcases hp with hp | hp
    · exact iff_of_true (step_read_of_not_admitted hp hadm) rfl
    · exact iff_of_true (step_write_of_not_admitted hp hadm) rfl
  | some loc =>
    refine iff_of_false (fun h => ?_) (by simp)
    rcases hp with hp | hp
    · cases hread : readTarget s loc with
      | ok w => simp [step_read_of_ok hp hadm hread] at h
      | error f =>
        obtain ⟨x, k, -, -, rfl⟩ := readTarget_fault hread
        simp [step_read_of_error hp hadm hread] at h
    · rw [step_write_of_admitted hp hadm] at h
      obtain ⟨i, -, -, x, -, k, -, hf⟩ := writeTarget_fault h
      cases hf

/-- Settles O8: each address of R51 reaches its target, whose value is the number stated. -/
theorem hostReadReturnsTheValueItNames : Obligations.HostReadReturnsTheValueItNames := by
  intro s es addr n hc hp answers
  have hanswer : ∀ {loc : Target} {v : Nat}, admitted s.cfg addr n = some loc →
      readTarget s loc = .ok (BitVec.ofNat 32 v) → answers v := fun hadm hread => step_read_of_ok hp hadm hread
  refine ⟨fun hno => step_read_of_not_admitted hp ((admitted_eq_none_iff hc).2 hno), ?_, ?_, ?_, ?_, ?_, ?_⟩
  · rintro rfl rfl
    exact hanswer (loc := .cmd) (admitted_base_add hc rfl) rfl
  · rintro rfl rfl
    exact hanswer (admitted_base_add hc (off := 4) rfl) (congrArg _ s.statusWord_eq)
  · rintro rfl rfl
    exact hanswer (admitted_base_add hc (off := 8) rfl) (congrArg _ (BitVec.ofNat_toNat 32 s.gmr).symm)
  · rintro rfl rfl
    exact hanswer (admitted_base_add hc (off := 12) rfl) (congrArg _ (capsWord_eq hc))
  · rintro p hmem rfl rfl
    rw [eq_of_mem_shapeOffsets hmem] at hanswer
    exact hanswer (admitted_shape hc p.1) (congrArg _ (s.shape p.1).word_eq)
  · rintro p hmem i hi rfl rfl
    rw [eq_of_mem_elementWindows hmem] at hp hanswer
    have hadm := admitted_elem hc hi
    refine ⟨fun v hv => hanswer hadm ?_, fun hv => step_read_of_error hp hadm ?_⟩
    · simp only [readTarget, (readElem_eq_ok_iff ..).2 hv, BitVec.ofNat_toNat]
    · simp only [readTarget, (readElem_eq_error_iff ..).2 ⟨hv, rfl⟩]

/-- Settles O9: each address of R51 reaches its target, and the target's write is the state stated. -/
theorem hostWriteStoresWhatItNames : Obligations.HostWriteStoresWhatItNames := by
  intro s es addr n v hc hp u
  have hstep : ∀ {loc : Target}, admitted s.cfg addr n = some loc → step s = writeTarget u v loc :=
    fun hadm => step_write_of_admitted hp hadm
  refine ⟨fun hno => step_write_of_not_admitted hp ((admitted_eq_none_iff hc).2 hno), ?_, ?_, ?_, ?_, ?_, ?_⟩
  · rintro rfl rfl
    exact hstep (admitted_cmd hc)
  · rintro rfl rfl
    rw [hstep (loc := .status) (admitted_base_add hc rfl), writeTarget, State.writeStatus_eq]
  · rintro rfl rfl
    exact hstep (loc := .gmr) (admitted_base_add hc rfl)
  · rintro rfl rfl
    exact hstep (loc := .caps) (admitted_base_add hc rfl)
  · rintro p hmem rfl rfl
    rw [eq_of_mem_shapeOffsets hmem] at hstep
    rw [hstep (admitted_shape hc p.1), writeTarget, Shape.ofWord_eq]
  · rintro p hmem i hi rfl rfl
    rw [eq_of_mem_elementWindows hmem] at hstep
    refine ⟨u.setElem p.1 i (v.setWidth p.1.width), hstep (admitted_elem hc hi), ?_, fun y j hother => ?_,
      u.setElem_eq p.1 i _⟩
    · rw [State.elem_setElem, if_pos rfl, BitVec.ofNat_toNat]
    · rw [u.elem_setElem_of_other hother, State.elem_pending]

/-- Settles O13: the two parameters are on the host's side, and CAP and BASE are not among them. -/
theorem platformParametersAreNotObservable : Obligations.PlatformParametersAreNotObservable := by
  intro s e b
  cases hp : s.pending with
  | nil => rw [step_of_nil hp, step_of_nil (s := s.withPlatform e b) hp]; rfl
  | cons ev es =>
    rw [step_of_cons hp, step_of_cons (s := s.withPlatform e b) hp]
    exact perform_rehost (f := fun c => { c with busEndian := e, busErrorAction := b }) (g := id)
      { s with pending := es } (fun _ => rfl) (fun _ => rfl) ev

/-- Settles O14: moving the window is a change of the host's side, and the map of offsets does not depend on BASE. -/
theorem behaviourDependsOnOffsetsOnly : Obligations.BehaviourDependsOnOffsetsOnly := by
  intro s es b b' hb hb'
  cases es with
  | nil =>
    rw [step_of_nil (s := s.placedAt b []) rfl, step_of_nil (s := s.placedAt b' []) rfl]
    exact SameOutcomeUpTo.of_mapNext (·.placedAt b' []) (.next (s.placedAt b []))
  | cons e es =>
    rw [step_of_cons (s := s.placedAt b (e :: es)) rfl, step_of_cons (s := s.placedAt b' (e :: es)) rfl]
    exact perform_placedAt (s := s.placedAt b es) e es hb hb'

/-- Settles O15, by induction on the accesses; a safe run is by definition one that goes on through all of them. -/
theorem stepsPerformPendingAccessesInOrder : Obligations.StepsPerformPendingAccessesInOrder := by
  intro es s h
  have hrun := run_eq_performAll es h
  exact ⟨hrun, exists_congr fun _ => Eq.congr_left hrun⟩

/-- Settles O47: the second run reads the operands of the first and takes the same effect, which was already taken; FLAT's own
second run finds one row. -/
theorem repeatingACommandChangesNothing : Obligations.RepeatingACommandChangesNothing := by
  intro s t w hs h
  cases hw : decode w with
  | error e =>
    rw [execute_of_reject hw] at h ⊢
    cases h
    rfl
  | ok i =>
    rw [execute_of_decode hw] at h ⊢
    exact exec_again hs h

end Sys2Proof.Machine
end

section
/-! PROOFS for 30_encoding.md. The fields of a command word as numbers; a word of a row's opcode decodes by the row's reserved
bits, so a word decodes exactly when it matches a row under its mask; and the run of a LOADM as one state. -/

/-! ## The fields of a command word (R81) -/

namespace Sys2Proof

theorem opcodeField_toNat (w : Word) : (opcodeField w).toNat = w.toNat / 2 ^ 24 := by
  have := w.isLt
  simp only [opcodeField, BitVec.extractLsb'_toNat, Nat.shiftRight_eq_div_pow]
  omega

theorem gaField_eq (w : Word) : gaField w = BitVec.ofNat 8 (w.toNat / 256) := by
  simp only [gaField, BitVec.extractLsb', Nat.shiftRight_eq_div_pow, Nat.reducePow]

theorem gbField_eq (w : Word) : gbField w = BitVec.ofNat 8 w.toNat := rfl

theorem selField_toNat (w : Word) : (selField w).toNat = w.toNat / 65536 % 4 := by
  simp only [selField, BitVec.extractLsb'_toNat, Nat.shiftRight_eq_div_pow, Nat.reducePow]

theorem bufferSel_selBuffer : ∀ sel, bufferSel (selBuffer sel) = sel := by decide

theorem selBuffer_bufferSel (x : Buffer) : selBuffer (bufferSel x) = x := by cases x <;> rfl

/-- `X = [A, B, T, R][sel]` (R82). -/
theorem getElem?_buffers : ∀ sel : BitVec 2, [Buffer.a, .b, .t, .r][sel.toNat]? = some (selBuffer sel) := by decide

/-- A word is its OPCODE and the bits below it. -/
theorem word_eq_iff (w v : Word) :
    w = v ↔ opcodeField w = opcodeField v ∧ w &&& 0x00FFFFFF = v &&& 0x00FFFFFF := by
  have low (u : Word) : (u &&& 0x00FFFFFF).toNat = u.toNat % 2 ^ 24 := Nat.and_two_pow_sub_one_eq_mod u.toNat 24
  simp only [← BitVec.toNat_inj, opcodeField_toNat, low]
  omega

/-- A field put back in its place is the word with every other bit 0. -/
theorem extractLsb'_shiftLeft_eq_and (w : Word) (i n : Nat) :
    (w.extractLsb' i n).setWidth 32 <<< i = w &&& (BitVec.allOnes n).setWidth 32 <<< i := by
  apply BitVec.eq_of_getLsbD_eq
  intro k hk
  by_cases hi : k < i
  · simp [hi]
  · simp [hi, hk, show i + (k - i) = k by omega, Bool.and_comm]

end Sys2Proof

/-! ## The decoder (R83, R84) -/

namespace Sys2Proof

variable {row : OpRow} {w : Word} {i : Instr}

/-- An opcode names one row. -/
theorem find?_opMap : ∀ row ∈ opMap, opMap.find? (fun q => q.opcode == row.opcode) = some row := by decide

theorem decode_of_opcode (hrow : row ∈ opMap) (hop : opcodeField w = row.opcode) :
    decode w = if w &&& row.rsvd = 0 then .ok (assemble row.op w) else .error (.reservedBitSet w) := by
  simp only [decode, hop, find?_opMap row hrow]

theorem decode_of_opcode_not_in_map (h : ∀ row ∈ opMap, opcodeField w ≠ row.opcode) :
    decode w = .error (.opcodeNotInMap (opcodeField w)) := by
  have hnone : opMap.find? (fun row => row.opcode == opcodeField w) = none :=
    List.find?_eq_none.2 fun row hrow => by simpa using (h row hrow).symm
  simp only [decode, hnone]

/-- A mask covers the whole OPCODE, and a match word has nothing below it. -/
theorem opMap_mask_match :
    ∀ row ∈ opMap, opcodeField row.mask = BitVec.allOnes 8 ∧ row.matchWord &&& 0x00FFFFFF = 0 := by
  decide

/-- The two tests of R83, opcode and reserved bits, are the one test of R84. -/
theorem matches_iff (hrow : row ∈ opMap) :
    w &&& row.mask = row.matchWord ↔ opcodeField w = row.opcode ∧ w &&& row.rsvd = 0 := by
  obtain ⟨-, hop⟩ := opMap_consistent row hrow
  obtain ⟨hmask, hlow⟩ := opMap_mask_match row hrow
  have hfield : opcodeField (w &&& row.mask) = opcodeField w := by
    rw [opcodeField, BitVec.extractLsb'_and, ← opcodeField, ← opcodeField, hmask, BitVec.and_allOnes]
  rw [word_eq_iff, hfield, hop, hlow, BitVec.and_assoc]
  rfl

/-- A word selects exactly the command of the row it matches, with its own operand fields. -/
theorem decode_eq_ok_iff :
    decode w = .ok i ↔ ∃ row ∈ opMap, w &&& row.mask = row.matchWord ∧ assemble row.op w = i := by
  constructor
  · intro h
    by_cases hmap : ∃ row ∈ opMap, opcodeField w = row.opcode
    · obtain ⟨row, hrow, hop⟩ := hmap
      rw [decode_of_opcode hrow hop] at h
      split at h
      · next hrsvd => exact ⟨row, hrow, (matches_iff hrow).2 ⟨hop, hrsvd⟩, Except.ok.inj h⟩
      · cases h
    · push Not at hmap
      rw [decode_of_opcode_not_in_map hmap] at h
      cases h
  · rintro ⟨row, hrow, hmatch, rfl⟩
    obtain ⟨hop, hrsvd⟩ := (matches_iff hrow).1 hmatch
    rw [decode_of_opcode hrow hop, if_pos hrsvd]

end Sys2Proof

/-! ## The encoder (R87) -/

namespace Sys2Proof

theorem gaField_encode_gmul (a b : Byte) : gaField (encode (.gmul a b)) = a := by
  ext k hk
  interval_cases k <;> simp [gaField, encode]

theorem gbField_encode_gmul (a b : Byte) : gbField (encode (.gmul a b)) = b := by
  ext k hk
  interval_cases k <;> simp [gbField, encode]

theorem selField_encode_flat (x : Buffer) : selField (encode (.flat x)) = bufferSel x := by cases x <;> rfl

/-- The operand fields of an encoded command are its operands. -/
theorem assemble_encode (i : Instr) : assemble i.op (encode i) = i := by
  cases i with
  | gmul a b => simp only [Instr.op, assemble, gaField_encode_gmul, gbField_encode_gmul]
  | flat x => simp only [Instr.op, assemble, selField_encode_flat, selBuffer_bufferSel]
  | _ => rfl

/-- An encoded command matches its own row of the opcode map. -/
theorem encode_matches (i : Instr) : ∃ row ∈ opMap, row.op = i.op ∧ encode i &&& row.mask = row.matchWord := by
  have hrow : Laws.RowMatch.Statement i := by
    cases i with
    | gmul a b => exact Laws.RowMatch.gmul a b
    | b2bits => exact Laws.RowMatch.b2bits
    | bits2b => exact Laws.RowMatch.bits2b
    | mbits => exact Laws.RowMatch.mbits
    | flat x => exact Laws.RowMatch.flat x
    | mxor => exact Laws.RowMatch.mxor
    | msum => exact Laws.RowMatch.msum
  obtain ⟨row, hmem, hop, hmatch, -⟩ := hrow
  exact ⟨row, hmem, hop, hmatch⟩

/-- Encoding a row's command with the operand fields of `w` keeps those fields of `w`, and every other bit is the row's own. -/
theorem encode_assemble (w : Word) :
    ∀ row ∈ opMap, encode (assemble row.op w) = row.matchWord ||| w &&& ~~~row.mask := by
  have hga : (gaField w).setWidth 32 <<< 8 = w &&& 0x0000FF00 := extractLsb'_shiftLeft_eq_and w 8 8
  have hgb : (gbField w).setWidth 32 = w &&& 0x000000FF := by
    simpa [gbField] using extractLsb'_shiftLeft_eq_and w 0 8
  have hsel : (selField w).setWidth 32 <<< 16 = w &&& 0x00030000 := extractLsb'_shiftLeft_eq_and w 16 2
  simp [opMap, assemble, encode, hga, hgb, hsel, bufferSel_selBuffer, BitVec.or_assoc, ← BitVec.and_or_distrib_left]

end Sys2Proof

/-! ## Executing a word (R83, R85) -/

namespace Sys2Proof.Machine

variable {row : OpRow} {w m : Word}

theorem execute_of_legal (hrow : row ∈ opMap) (hm : row.rsvd = m) (hop : w.toNat / 2 ^ 24 = row.opcode.toNat)
    (h : w &&& m = 0) (s : State) : execute w s = exec (assemble row.op w) s := by
  have hop' : opcodeField w = row.opcode := BitVec.eq_of_toNat_eq ((opcodeField_toNat w).trans hop)
  exact execute_of_decode (by rw [decode_of_opcode hrow hop', hm, if_pos h]) s

theorem execute_of_reserved (hrow : row ∈ opMap) (hm : row.rsvd = m) (hop : w.toNat / 2 ^ 24 = row.opcode.toNat)
    (h : w &&& m ≠ 0) (s : State) : execute w s = .next (s.failedWith 4) := by
  have hop' : opcodeField w = row.opcode := BitVec.eq_of_toNat_eq ((opcodeField_toNat w).trans hop)
  exact execute_of_reject (by rw [decode_of_opcode hrow hop', hm, if_neg h]) s

/-- The opcodes of the map are 1 to 7. -/
theorem opcode_range : ∀ row ∈ opMap, 1 ≤ row.opcode.toNat ∧ row.opcode.toNat ≤ 7 := by decide

theorem execute_of_unmapped (h : w.toNat / 2 ^ 24 = 0 ∨ 8 ≤ w.toNat / 2 ^ 24) (s : State) :
    execute w s = .next (s.failedWith 4) := by
  refine execute_of_reject (decode_of_opcode_not_in_map fun row hrow hop => ?_) s
  have := opcode_range row hrow
  rw [← hop, opcodeField_toNat] at this
  omega

/-- Every command but GMUL and FLAT has all bits below OPCODE reserved (R84). -/
theorem exists_row_without_operands {op : Nat} (h : op = 2 ∨ op = 3 ∨ op = 4 ∨ op = 6 ∨ op = 7) :
    ∃ row ∈ opMap, op = row.opcode.toNat ∧ row.rsvd = 0x00FFFFFF := by
  rcases h with rfl | rfl | rfl | rfl | rfl <;> decide

end Sys2Proof.Machine

/-! ## LOADM (R89) -/

namespace Sys2Proof.Machine

variable {s : State}

/-- Rows of one length have that many values each. -/
theorem length_flatten_of_length {α : Type} {c : Nat} {rows : List (List α)} (h : ∀ row ∈ rows, row.length = c) :
    rows.flatten.length = rows.length * c := by
  rw [List.length_flatten, List.sum_eq_card_nsmul _ c (by simpa using h), List.length_map, smul_eq_mul]

/-- Value (i, j) of rows of `c` values is value i·c + j of their concatenation (00_scope.md R12). -/
theorem getElem?_flatten_of_length {α : Type} {c : Nat} {rows : List (List α)} (h : ∀ row ∈ rows, row.length = c)
    {i j : Nat} (hi : i < rows.length) (hj : j < rows[i].length) : rows.flatten[i * c + j]? = some rows[i][j] := by
  induction rows generalizing i with
  | nil => simp at hi
  | cons row rows ih =>
    obtain ⟨hrow, hrows⟩ := List.forall_mem_cons.1 h
    cases i with
    | zero =>
      rw [List.getElem_cons_zero] at hj
      rw [List.flatten_cons, Nat.zero_mul, Nat.zero_add, List.getElem?_append_left hj]
      exact List.getElem?_eq_getElem hj
    | succ i =>
      rw [List.flatten_cons, List.getElem?_append_right (by rw [hrow, Nat.succ_mul]; omega),
        show (i + 1) * c + j - row.length = i * c + j by rw [hrow, Nat.succ_mul]; omega]
      exact ih hrows (by simpa using hi) hj

theorem State.writeElems_cons (s : State) (x : Buffer) (i : Nat) (v : BitVec x.width) (vs : List (BitVec x.width)) :
    s.writeElems x i (v :: vs) = (s.setElem x i v).writeElems x (i + 1) vs := by
  cases x <;> rfl

/-- A shape write of counts that fit their fields sets just that shape. -/
theorem perform_writeShape (hc : s.cfg.wellFormed = true) (x : Buffer) {r c : Nat} (hr : r < 4096) (hcols : c < 4096) :
    perform (writeShape s.cfg x r c) s = .next (s.setShape x (Shape.ofCounts r c)) := by
  have hword : (BitVec.ofNat 32 (r <<< 16 ||| c)).toNat = r * 65536 + c := by
    rw [← Nat.shiftLeft_add_eq_or_of_lt (by omega), Nat.shiftLeft_eq, BitVec.toNat_ofNat]
    omega
  have hshape : Shape.ofWord (BitVec.ofNat 32 (r <<< 16 ||| c)) = Shape.ofCounts r c := by
    rw [Shape.ofWord_eq, hword, Shape.ofCounts, show (r * 65536 + c) / 65536 = r by omega, Shape.mk.injEq]
    exact ⟨rfl, BitVec.eq_of_toNat_eq (by simp only [BitVec.toNat_ofNat]; omega)⟩
  simp only [writeShape, writeLoc, Target.offset, perform_write, memWrite, admitted_shape hc, writeTarget, hshape]

/-- Element writes that stay within the element count write the sequence, each value cut to the element's width. -/
theorem performAll_writeElemsFrom (hc : s.cfg.wellFormed = true) (x : Buffer) {i : Nat} {vs : List Word}
    (hi : i + vs.length ≤ x.capacity s.cfg) : performAll (writeElemsFrom s.cfg x i vs) s =
      .next (s.writeElems x i (vs.map fun v => v.setWidth x.width)) := by
  induction vs generalizing s i with
  | nil => cases x <;> rfl
  | cons v vs ih =>
    rw [List.length_cons] at hi
    have hfirst : perform (writeLoc s.cfg (.elem x i) v) s = .next (s.setElem x i (v.setWidth x.width)) := by
      rw [writeLoc, Target.offset, ← Nat.add_assoc, perform_write, memWrite, admitted_elem hc (by omega)]
      rfl
    have hrest := ih (s := s.setElem x i (v.setWidth x.width)) (i := i + 1) (by simpa using hc)
      (by rw [State.setElem_cfg]; omega)
    rw [State.setElem_cfg] at hrest
    simp only [writeElemsFrom, performAll, hfirst, hrest, List.map_cons, State.writeElems_cons]

/-- The assembler takes a matrix literal with at least one row, rows of one length, and counts that fit their fields. -/
theorem loadm_wellFormed_iff (x : Buffer) (rows : List (List Word)) : (HostLine.loadm x rows).wellFormed = true ↔
    rows ≠ [] ∧ (∀ row ∈ rows, row.length = rowLength rows) ∧ rows.length < 4096 ∧ rowLength rows < 4096 := by
  simp [HostLine.wellFormed, and_assoc]

/-- The counts of an accepted literal of rows of `c` values. -/
theorem loadm_counts {x : Buffer} {rows : List (List Word)} {c : Nat} (hwf : (HostLine.loadm x rows).wellFormed = true)
    (hrows : ∀ row ∈ rows, row.length = c) : rowLength rows = c ∧ rows.length < 4096 ∧ c < 4096 := by
  obtain ⟨hne, -, hr, hcols⟩ := (loadm_wellFormed_iff x rows).1 hwf
  obtain ⟨row, rows, rfl⟩ := List.exists_cons_of_ne_nil hne
  obtain rfl : row.length = c := hrows row List.mem_cons_self
  exact ⟨rfl, hr, hcols⟩

/-- A LOADM that fits its buffer is one shape write and one sequence from element 0 on. -/
theorem performAll_loadm (hc : s.cfg.wellFormed = true) {x : Buffer} {rows : List (List Word)} {c : Nat}
    (hwf : (HostLine.loadm x rows).wellFormed = true) (hrows : ∀ row ∈ rows, row.length = c)
    (hfit : rows.length * c ≤ x.capacity s.cfg) : performAll ((HostLine.loadm x rows).expand s.cfg) s =
      .next ((s.setShape x (Shape.ofCounts rows.length c)).writeElems x 0
        (rows.flatten.map fun v => v.setWidth x.width)) := by
  obtain ⟨hlen, hr, hcols⟩ := loadm_counts hwf hrows
  have hload := performAll_writeElemsFrom (s := s.setShape x (Shape.ofCounts rows.length c)) (i := 0)
    (vs := rows.flatten) (by simpa using hc) x (by simpa [length_flatten_of_length hrows] using hfit)
  rw [State.setShape_cfg] at hload
  simp only [HostLine.expand, performAll, hlen, perform_writeShape hc x hr hcols, hload]

end Sys2Proof.Machine

/-! ## The statements of 30_encoding.md -/

namespace Sys2Proof.Machine

/-- Settles O2: an encoded command matches its own row, and its operand fields are its operands. -/
theorem encodedCommandDecodesToItself : Obligations.EncodedCommandDecodesToItself := by
  intro i
  obtain ⟨row, hrow, hop, hmatch⟩ := encode_matches i
  exact decode_eq_ok_iff.2 ⟨row, hrow, hmatch, by rw [hop, assemble_encode]⟩

/-- Settles O3: the bits under the mask are the row's match word, and the encoder keeps the others. -/
theorem decodedWordIsItsEncoding : Obligations.DecodedWordIsItsEncoding := by
  intro w i h
  obtain ⟨row, hrow, hmatch, rfl⟩ := decode_eq_ok_iff.1 h
  calc encode (assemble row.op w) = row.matchWord ||| w &&& ~~~row.mask := encode_assemble w row hrow
    _ = w &&& row.mask ||| w &&& ~~~row.mask := by rw [hmatch]
    _ = w := by rw [← BitVec.and_or_distrib_left, BitVec.or_not_self, BitVec.and_allOnes]

/-- Settles O4, from the characterisation of the decoder: of the seven rows only the command's own can give it. -/
theorem wordSelectsCommandByMaskAndMatch : Obligations.WordSelectsCommandByMaskAndMatch := by
  refine ⟨by decide, fun w => ⟨fun a b => ?gmul, ?_, ?_, ?_, fun x => ?flat, ?_, ?_⟩⟩
  case gmul => simp [decode_eq_ok_iff, opMap, assemble, gaField_eq, gbField_eq, ← BitVec.toNat_inj, eq_comm]
  case flat => simp [decode_eq_ok_iff, opMap, assemble, ← selField_toNat, getElem?_buffers]
  all_goals simp [decode_eq_ok_iff, opMap, assemble]

/-- Settles O5: a word of a row's opcode runs the row's command exactly when its reserved bits are 0. -/
theorem everyWordRunsItsCommandOrIsIllegal : Obligations.EveryWordRunsItsCommandOrIsIllegal := by
  intro s w op low
  have hgmul : low &&& 0x00FF0000 = w &&& 0x00FF0000 := BitVec.and_assoc ..
  have hflat : low &&& 0x00FCFFFF = w &&& 0x00FCFFFF := BitVec.and_assoc ..
  refine ⟨fun hop => execute_of_unmapped hop s, fun hop h => ?_, fun hop h => ?_, fun hop h => ?_, fun hop h => ?_,
    fun hop h => ?_, fun hop h => ?_, fun hop h => ?_, fun hop h x hx => ?_, fun hop h => ?_, fun hop h => ?_⟩
  · exact execute_of_reserved (row := opMap[0]) (by decide) (by decide) hop (hgmul ▸ h) s
  · exact execute_of_reserved (row := opMap[4]) (by decide) (by decide) hop (hflat ▸ h) s
  · obtain ⟨row, hrow, hop', hrsvd⟩ := exists_row_without_operands hop
    exact execute_of_reserved hrow hrsvd hop' h s
  · rw [execute_of_legal (row := opMap[0]) (by decide) (by decide) hop (hgmul ▸ h) s, ← gaField_eq, ← gbField_eq]
    rfl
  · exact execute_of_legal (row := opMap[1]) (by decide) (by decide) hop h s
  · exact execute_of_legal (row := opMap[2]) (by decide) (by decide) hop h s
  · exact execute_of_legal (row := opMap[3]) (by decide) (by decide) hop h s
  · obtain rfl : selBuffer (selField w) = x := by simpa [← selField_toNat, getElem?_buffers] using hx
    exact execute_of_legal (row := opMap[4]) (by decide) (by decide) hop (hflat ▸ h) s
  · exact execute_of_legal (row := opMap[5]) (by decide) (by decide) hop h s
  · exact execute_of_legal (row := opMap[6]) (by decide) (by decide) hop h s

/-- Settles O48: the run of LOADM is one shape write and one sequence of element writes. -/
theorem loadmPlacesTheMatrixRowMajor : Obligations.LoadmPlacesTheMatrixRowMajor := by
  intro s x rows c hc hwf hrows hfit
  obtain ⟨-, hr, hcols⟩ := loadm_counts hwf hrows
  have hlen : (rows.flatten.map fun v => v.setWidth x.width).length = rows.length * c := by
    rw [List.length_map, length_flatten_of_length hrows]
  refine ⟨_, performAll_loadm hc hwf hrows hfit, ?_, ?_, fun i hi j hj => ?_, fun y k hout => ?_, fun y hy => ?_,
    by simp, by simp, by simp, by simp, by simp, by simp⟩
  · simpa [Shape.ofCounts] using hr
  · simpa [Shape.ofCounts] using hcols
  · have hget : (rows.flatten.map fun v => v.setWidth x.width)[i * c + j]? =
        some (BitVec.ofNat x.width rows[i][j].toNat) := by
      rw [List.getElem?_map, getElem?_flatten_of_length hrows hi hj, BitVec.ofNat_toNat, Option.map_some]
    obtain ⟨hlt, -⟩ := List.getElem?_eq_some_iff.1 hget
    rw [State.elem_writeElems, if_pos (by omega), Nat.sub_zero, hget]
  · by_cases hy : y = x
    · subst hy
      have hk := hout.resolve_left (absurd rfl)
      rw [State.elem_writeElems, if_neg (by omega), State.elem_setShape]
    · rw [State.elem_writeElems_of_ne _ hy, State.elem_setShape]
  · simp [hy]

/-- Settles O1, by running the decoder on each word. -/
theorem writtenOutWordsDecode : Obligations.WrittenOutWordsDecode := by
  unfold Obligations.WrittenOutWordsDecode
  decide

end Sys2Proof.Machine
end

section
/-! PROOFS for 40_field_arith.md. The loop on its own: iterations after y is exhausted do nothing, and what is shifted out of x
never comes back. The loop as field arithmetic: a byte is a polynomial over GF(2) of degree below 8, hence an element of the
quotient by x^8 + x^4 + x^3 + x + 1, where doubling is multiplication by the root and gmul is the ring's product. -/

/-! ## The loop count (R102) -/

namespace Sys2Proof.Machine

/-- An iteration from y = 0 leaves p unchanged. -/
theorem gmulLoop_zero_right (n : Nat) (p x : Byte) : gmulLoop n p x 0 = p := by
  induction n generalizing x with
  | zero => rfl
  | succ n ih => exact ih (xtime x)

theorem shiftRight_one_shiftRight {n : Nat} {y : Byte} (hy : y >>> (n + 1) = 0) : y >>> 1 >>> n = 0 := by
  rwa [← BitVec.shiftRight_add, Nat.add_comm]

theorem shiftRight_eight (y : Byte) : y >>> 8 = 0 := BitVec.ushiftRight_eq_zero le_rfl

/-- Iterations after y is exhausted do not count. -/
theorem gmulLoop_of_le {m n : Nat} (hmn : m ≤ n) (p x : Byte) {y : Byte} (hy : y >>> m = 0) :
    gmulLoop n p x y = gmulLoop m p x y := by
  induction m generalizing n p x y with
  | zero =>
    obtain rfl : y = 0 := hy
    exact gmulLoop_zero_right n p x
  | succ m ih =>
    obtain ⟨k, rfl⟩ := Nat.exists_eq_add_of_le' (Nat.one_le_of_lt hmn)
    exact ih (by omega) _ _ (shiftRight_one_shiftRight hy)

/-- Stopping at y = 0 skips only iterations that do nothing. -/
theorem gmulUntilZero_eq_gmulLoop (fuel : Nat) (p x y : Byte) : gmulUntilZero fuel p x y = gmulLoop fuel p x y := by
  induction fuel generalizing p x y with
  | zero => rfl
  | succ fuel ih =>
    rw [gmulUntilZero]
    split
    · next hy => rw [hy, gmulLoop_zero_right]
    · exact ih ..

end Sys2Proof.Machine

/-! ## The unmasked operand (R103) -/

namespace Sys2Proof.Machine

/-- Doubling commutes with masking: bit 7 is below the mask, and no bit moves down. -/
theorem xtime_ofNat (x : Nat) : xtime (BitVec.ofNat 8 x) =
    BitVec.ofNat 8 (if x.testBit 7 then (x <<< 1) ^^^ reductionLow.toNat else x <<< 1) := by
  have hbit : (BitVec.ofNat 8 x).getLsbD 7 = x.testBit 7 := by rw [BitVec.getLsbD_ofNat]; rfl
  have hshift : BitVec.ofNat 8 x <<< 1 = BitVec.ofNat 8 (x <<< 1) := by
    simp [← BitVec.toNat_inj, Nat.shiftLeft_eq]
  rw [xtime, hbit, hshift]
  split
  · rw [BitVec.ofNat_xor, BitVec.ofNat_toNat, BitVec.setWidth_eq]
  · rfl

/-- The unmasked loop, masked at its end, is the loop on the masked operands. -/
theorem ofNat_gmulUnmaskedLoop (n p x : Nat) (y : Byte) : BitVec.ofNat 8 (gmulUnmaskedLoop n p x y) =
    gmulLoop n (BitVec.ofNat 8 p) (BitVec.ofNat 8 x) y := by
  induction n generalizing p x y with
  | zero => rfl
  | succ n ih => rw [gmulUnmaskedLoop, gmulLoop, ih, xtime_ofNat, apply_ite (BitVec.ofNat 8), BitVec.ofNat_xor]

end Sys2Proof.Machine

/-! ## A byte as a polynomial over GF(2) (R105) -/

namespace Sys2Proof.Machine

open Polynomial

/-- Bit k of a byte is the coefficient of x^k. -/
noncomputable def bytePoly (v : Byte) : (ZMod 2)[X] := ∑ k ∈ Finset.range 8, if v.getLsbD k then X ^ k else 0

theorem coeff_bytePoly (v : Byte) (k : Nat) : (bytePoly v).coeff k = if v.getLsbD k then 1 else 0 := by
  simp only [bytePoly, finsetSum_coeff, apply_ite (coeff · k), coeff_X_pow, coeff_zero]
  by_cases hk : k < 8
  · rw [Finset.sum_eq_single_of_mem k (Finset.mem_range.2 hk) fun j _ hj => by simp [hj.symm], if_pos rfl]
  · rw [v.getLsbD_of_ge k (by omega)]
    exact Finset.sum_eq_zero fun j hj => by simp [show k ≠ j by have := Finset.mem_range.1 hj; omega]

theorem degree_bytePoly_lt (v : Byte) : (bytePoly v).degree < 8 :=
  (degree_lt_iff_coeff_zero _ 8).2 fun k hk => by simp [coeff_bytePoly, v.getLsbD_of_ge k hk]

@[simp] theorem bytePoly_zero : bytePoly 0#8 = 0 := by
  ext k
  simp [coeff_bytePoly]

theorem bytePoly_eq_zero_iff (v : Byte) : bytePoly v = 0 ↔ v = 0 := by
  refine ⟨fun h => BitVec.eq_of_getLsbD_eq fun k _ => ?_, ?_⟩
  · simpa [coeff_bytePoly] using congrArg (coeff · k) h
  · rintro rfl
    exact bytePoly_zero

/-- XOR is the addition of polynomials: coefficients are added modulo 2. -/
@[simp] theorem bytePoly_xor (v w : Byte) : bytePoly (v ^^^ w) = bytePoly v + bytePoly w := by
  ext k
  simp only [coeff_add, coeff_bytePoly, BitVec.getLsbD_xor]
  cases v.getLsbD k <;> cases w.getLsbD k <;> simp [CharTwo.add_self_eq_zero]

/-- A left shift is multiplication by x, but for the bit shifted out. -/
theorem bytePoly_shiftLeft_one (v : Byte) :
    X * bytePoly v = bytePoly (v <<< 1) + (if v.getLsbD 7 then X ^ 8 else 0 : (ZMod 2)[X]) := by
  ext k
  rw [coeff_add, apply_ite (coeff · k), coeff_X_pow, coeff_zero, coeff_bytePoly, BitVec.getLsbD_shiftLeft]
  cases k with
  | zero => simp
  | succ k =>
    rw [coeff_X_mul, coeff_bytePoly]
    obtain hk | rfl | hk := lt_trichotomy k 7
    · simp [hk.ne, show k + 1 < 8 by omega]
    · simp
    · simp [hk.ne', v.getLsbD_of_ge k hk]

/-- A byte is its bit 0 and x times its right shift. -/
theorem bytePoly_shiftRight_one (v : Byte) :
    bytePoly v = (if v.getLsbD 0 then 1 else 0 : (ZMod 2)[X]) + X * bytePoly (v >>> 1) := by
  ext k
  rw [coeff_add, apply_ite (coeff · k), coeff_one, coeff_zero, coeff_bytePoly]
  cases k with
  | zero => simp
  | succ k => simp [coeff_X_mul, coeff_bytePoly, Nat.add_comm]

@[simp] theorem bytePoly_one : bytePoly 1#8 = 1 := by
  simpa using bytePoly_shiftRight_one 1

theorem bytePoly_two : bytePoly 2#8 = X := by
  simpa using bytePoly_shiftRight_one 2

/-- The reduction polynomial 0x11B of 00_scope.md R7. -/
noncomputable def reductionPoly : (ZMod 2)[X] := X ^ 8 + X ^ 4 + X ^ 3 + X + 1

theorem reductionPoly_monic : reductionPoly.Monic := by
  unfold reductionPoly
  monicity!

theorem reductionPoly_degree : reductionPoly.degree = 8 := by
  unfold reductionPoly
  compute_degree!

theorem reductionPoly_eq : reductionPoly = X ^ 8 + bytePoly reductionLow := by
  have hlow : bytePoly reductionLow = 1 + X + X ^ 3 + X ^ 4 := by simp [bytePoly, Finset.sum_range_succ, reductionLow]
  rw [reductionPoly, hlow]
  ring

/-- Doubling is multiplication by x, with one reduction when the bit shifted out was 1. -/
theorem bytePoly_xtime (v : Byte) :
    bytePoly (xtime v) = X * bytePoly v + (if v.getLsbD 7 then reductionPoly else 0 : (ZMod 2)[X]) := by
  rw [bytePoly_shiftLeft_one, xtime]
  split
  · rw [bytePoly_xor, reductionPoly_eq, add_assoc, CharTwo.add_cancel_left]
  · rw [add_zero, add_zero]

end Sys2Proof.Machine

/-! ## A byte as a field element (R105) -/

namespace Sys2Proof.Machine

open Polynomial

/-- The class of a byte's polynomial modulo the reduction polynomial. -/
noncomputable def fieldElem (v : Byte) : AdjoinRoot reductionPoly := AdjoinRoot.mk reductionPoly (bytePoly v)

@[simp] theorem fieldElem_zero : fieldElem 0#8 = 0 := by
  rw [fieldElem, bytePoly_zero, map_zero]

@[simp] theorem fieldElem_one : fieldElem 1#8 = 1 := by
  rw [fieldElem, bytePoly_one, map_one]

theorem fieldElem_two : fieldElem 2#8 = AdjoinRoot.root reductionPoly := by
  rw [fieldElem, bytePoly_two, AdjoinRoot.mk_X]

@[simp] theorem fieldElem_xor (v w : Byte) : fieldElem (v ^^^ w) = fieldElem v + fieldElem w := by
  rw [fieldElem, bytePoly_xor, map_add]
  rfl

/-- Polynomials of degree below 8 are their own remainders, so bytes are distinct field elements. -/
theorem fieldElem_injective : Function.Injective fieldElem := by
  intro v w h
  have hdvd : reductionPoly ∣ bytePoly (v ^^^ w) := by
    rw [bytePoly_xor, ← CharTwo.sub_eq_add]
    exact AdjoinRoot.mk_eq_mk.1 h
  have hzero : bytePoly (v ^^^ w) = 0 :=
    eq_zero_of_dvd_of_degree_lt hdvd (reductionPoly_degree ▸ degree_bytePoly_lt _)
  exact BitVec.xor_eq_zero_iff.1 ((bytePoly_eq_zero_iff _).1 hzero)

theorem fieldElem_xtime (v : Byte) : fieldElem (xtime v) = AdjoinRoot.root reductionPoly * fieldElem v := by
  rw [fieldElem, bytePoly_xtime, map_add, map_mul, AdjoinRoot.mk_X, apply_ite (AdjoinRoot.mk reductionPoly),
    AdjoinRoot.mk_self, map_zero, ite_self, add_zero]
  rfl

theorem fieldElem_shiftRight_one (v : Byte) : fieldElem v =
    (if v.getLsbD 0 then 1 else 0 : AdjoinRoot reductionPoly) + AdjoinRoot.root reductionPoly * fieldElem (v >>> 1) := by
  rw [fieldElem, bytePoly_shiftRight_one, map_add, map_mul, AdjoinRoot.mk_X, apply_ite (AdjoinRoot.mk reductionPoly),
    map_one, map_zero]
  rfl

/-- The loop's invariant: while y is not exhausted, p + x·y is the product. -/
theorem fieldElem_gmulLoop {n : Nat} (p x : Byte) {y : Byte} (hy : y >>> n = 0) :
    fieldElem (gmulLoop n p x y) = fieldElem p + fieldElem x * fieldElem y := by
  induction n generalizing p x y with
  | zero =>
    obtain rfl : y = 0 := hy
    simp [gmulLoop]
  | succ n ih =>
    rw [gmulLoop, ih _ _ (shiftRight_one_shiftRight hy), fieldElem_xtime, fieldElem_shiftRight_one y]
    split
    · rw [fieldElem_xor]
      ring
    · ring

@[simp] theorem fieldElem_gmul (a b : Byte) : fieldElem (gmul a b) = fieldElem a * fieldElem b := by
  simpa [gmul] using fieldElem_gmulLoop 0 a (shiftRight_eight b)

end Sys2Proof.Machine

/-! ## The laws of gmul (R104, R105) -/

namespace Sys2Proof.Machine

theorem gmul_comm (a b : Byte) : gmul a b = gmul b a := fieldElem_injective (by simp [mul_comm])

theorem gmul_assoc (a b c : Byte) : gmul (gmul a b) c = gmul a (gmul b c) :=
  fieldElem_injective (by simp [mul_assoc])

theorem gmul_one (a : Byte) : gmul a 1 = a := fieldElem_injective (by simp)

theorem gmul_zero (a : Byte) : gmul a 0 = 0 := fieldElem_injective (by simp)

theorem gmul_xor (a b c : Byte) : gmul a (b ^^^ c) = gmul a b ^^^ gmul a c :=
  fieldElem_injective (by simp [mul_add])

end Sys2Proof.Machine

/-! ## Inverses (R105)

The eighth power of Frobenius fixes the root, hence every element: a^256 = a. So a^255 is idempotent, and the only idempotent
bytes are 0 and 1. -/

namespace Sys2Proof.Machine

/-- The power a^n. -/
def gmulPow (a : Byte) (n : Nat) : Byte := (gmul a)^[n] 1

theorem gmulPow_succ (a : Byte) (n : Nat) : gmulPow a (n + 1) = gmul a (gmulPow a n) :=
  Function.iterate_succ_apply' ..

@[simp] theorem fieldElem_gmulPow (a : Byte) (n : Nat) : fieldElem (gmulPow a n) = fieldElem a ^ n := by
  induction n with
  | zero => simp [gmulPow]
  | succ n ih => rw [gmulPow_succ, fieldElem_gmul, ih, pow_succ']

/-- x^256 = x, by four fourth powers. -/
theorem root_pow_256 : AdjoinRoot.root reductionPoly ^ 256 = AdjoinRoot.root reductionPoly := by
  have h4 : gmulPow 0x02#8 4 = 0x10#8 := by decide
  have h16 : gmulPow 0x10#8 4 = 0x5E#8 := by decide
  have h64 : gmulPow 0x5E#8 4 = 0x4D#8 := by decide
  have h256 : gmulPow 0x4D#8 4 = 0x02#8 := by decide
  rw [← fieldElem_two, show 256 = 4 * 4 * 4 * 4 by rfl, pow_mul, pow_mul, pow_mul]
  rw [← fieldElem_gmulPow, h4, ← fieldElem_gmulPow, h16, ← fieldElem_gmulPow, h64, ← fieldElem_gmulPow, h256]

/-- The eighth power of Frobenius and the identity agree at the root, so they are the same homomorphism. -/
theorem pow_256_eq (z : AdjoinRoot reductionPoly) : z ^ 256 = z := by
  have hpow (z) : (FiniteField.frobeniusAlgHom (ZMod 2) (AdjoinRoot reductionPoly) ^ 8) z = z ^ 256 := by
    rw [AlgHom.coe_pow, FiniteField.coe_frobeniusAlgHom, pow_iterate, ZMod.card]
  have hid : FiniteField.frobeniusAlgHom (ZMod 2) (AdjoinRoot reductionPoly) ^ 8 = 1 :=
    AdjoinRoot.algHom_ext ((hpow _).trans root_pow_256)
  rw [← hpow, hid, AlgHom.one_apply]

/-- The only idempotent bytes are 0 and 1, by trying each byte. -/
theorem eq_zero_or_eq_one_of_gmul_self : ∀ e : Byte, gmul e e = e → e = 0 ∨ e = 1 := by decide

/-- a^255 is idempotent and not 0, or a = a·a^255 would be 0. -/
theorem gmulPow_255 {a : Byte} (ha : a ≠ 0) : gmulPow a 255 = 1 := by
  have hidem : gmul (gmulPow a 255) (gmulPow a 255) = gmulPow a 255 := fieldElem_injective <| by
    simp only [fieldElem_gmul, fieldElem_gmulPow]
    calc fieldElem a ^ 255 * fieldElem a ^ 255 = fieldElem a ^ 256 * fieldElem a ^ 254 := by
          rw [← pow_add, ← pow_add]
      _ = fieldElem a ^ 255 := by rw [pow_256_eq, ← pow_succ']
  refine (eq_zero_or_eq_one_of_gmul_self _ hidem).resolve_left fun hzero => ha (fieldElem_injective ?_)
  calc fieldElem a = fieldElem (gmul a (gmulPow a 255)) := by rw [← gmulPow_succ, fieldElem_gmulPow, pow_256_eq]
    _ = fieldElem 0 := by rw [hzero, gmul_zero]

end Sys2Proof.Machine

/-! ## The command word (R100) -/

namespace Sys2Proof.Machine

theorem encode_gmul (a b : Byte) :
    encode (.gmul a b) = BitVec.ofNat 32 (0x01000000 + a.toNat * 256 + b.toNat) := by
  have hlow : a.toNat * 2 ^ 8 + b.toNat < 2 ^ 24 := by omega
  rw [encode, BitVec.or_assoc, shiftLeft_or_eq_ofNat a b le_rfl, Nat.add_assoc]
  calc BitVec.ofNat 32 (1 <<< 24) ||| BitVec.ofNat 32 (a.toNat * 2 ^ 8 + b.toNat)
    _ = BitVec.ofNat 32 (1 <<< 24 + (a.toNat * 2 ^ 8 + b.toNat)) := by
      rw [← BitVec.ofNat_or, Nat.shiftLeft_add_eq_or_of_lt hlow]

end Sys2Proof.Machine

/-! ## The statements of 40_field_arith.md -/

namespace Sys2Proof.Machine

/-- Settles O17: the word is the encoding of its command, and the command has one outcome. -/
theorem gmulWritesTheProduct : Obligations.GmulWritesTheProduct := by
  intro a b s
  exact ⟨encode_gmul a b ▸ encodedCommandDecodesToItself _, rfl⟩

/-- Settles O18, in the quotient ring. -/
theorem gmulFieldLaws : Obligations.GmulFieldLaws :=
  fun a b c => ⟨gmul_comm a b, gmul_one a, gmul_zero a, gmul_xor a b c⟩

/-- Settles O19: the product in the quotient ring is the product up to a multiple of the reduction polynomial, and a byte's
polynomial is its own remainder. -/
theorem gmulIsPolynomialProductModulo : Obligations.GmulIsPolynomialProductModulo := by
  intro a b
  change bytePoly (gmul a b) = (bytePoly a * bytePoly b) %ₘ reductionPoly
  have hdvd : reductionPoly ∣ bytePoly (gmul a b) - bytePoly a * bytePoly b :=
    AdjoinRoot.mk_eq_mk.1 ((fieldElem_gmul a b).trans (map_mul _ _ _).symm)
  have hself : bytePoly (gmul a b) %ₘ reductionPoly = bytePoly (gmul a b) :=
    (Polynomial.modByMonic_eq_self_iff reductionPoly_monic).2 (reductionPoly_degree ▸ degree_bytePoly_lt _)
  rw [← hself, Polynomial.modByMonic_eq_of_dvd_sub reductionPoly_monic hdvd]

/-- Settles O20: the inverse of a is a^254. -/
theorem gmulIsAssociativeWithUniqueInverses : Obligations.GmulIsAssociativeWithUniqueInverses := by
  refine ⟨gmul_assoc, fun a ha => ?_⟩
  have hinv : gmul a (gmulPow a 254) = 1 := (gmulPow_succ a 254).symm.trans (gmulPow_255 ha)
  refine ⟨gmulPow a 254, hinv, fun b' hb' => ?_⟩
  calc b' = gmul b' (gmul a (gmulPow a 254)) := by rw [hinv, gmul_one]
    _ = gmul (gmul a b') (gmulPow a 254) := by rw [← gmul_assoc, gmul_comm b' a]
    _ = gmulPow a 254 := by rw [hb', gmul_comm, gmul_one]

/-- Settles O21: both loops are the fixed loop of `fuel` iterations, and 8 of them exhaust b. -/
theorem gmulStoppingWhenExhaustedAgrees : Obligations.GmulStoppingWhenExhaustedAgrees := by
  refine ⟨fun a b fuel hfuel => ?_, gmulLoop_zero_right, shiftRight_eight⟩
  rw [gmulUntilZero_eq_gmulLoop, gmulLoop_of_le hfuel 0 a (shiftRight_eight b), gmul]

/-- Settles O22, as the masked loop on operands that need no mask. -/
theorem gmulWithoutMaskingAgrees : Obligations.GmulWithoutMaskingAgrees := by
  intro a b
  rw [gmulUnmasked, ofNat_gmulUnmaskedLoop, BitVec.ofNat_toNat, BitVec.setWidth_eq]
  rfl

end Sys2Proof.Machine
end

section
/-! PROOFS for 41_host_codec.md. HEX2B gives x exactly when the characters it reads, padded to an even count, are the digits of
x's bytes in order; the statement about each pair of digits is this equation read at one position. B2HEX's display repeats every
six characters, so dropping 6k of them leaves the display of the bytes from the k-th on. -/

/-! ## Hex digits (R111) -/

namespace Sys2Proof.Machine

/-- The lower-case hex digits in the order of their values (R111, R114). -/
def lowerDigits : List Char := ['0', '1', '2', '3', '4', '5', '6', '7', '8', '9', 'a', 'b', 'c', 'd', 'e', 'f']

/-- The upper-case hex digits in the order of their values (R111). -/
def upperDigits : List Char := ['0', '1', '2', '3', '4', '5', '6', '7', '8', '9', 'A', 'B', 'C', 'D', 'E', 'F']

theorem getElem?_lowerDigits : ∀ d < 16, lowerDigits[d]? = some (lowerDigit d) := by decide

theorem getElem?_upperDigits : ∀ d < 16, upperDigits[d]? = some (upperDigit d) := by decide

theorem hexval_lowerDigit : ∀ d < 16, hexval (lowerDigit d) = some d := by decide

theorem hexval_upperDigit : ∀ d < 16, hexval (upperDigit d) = some d := by decide

/-- A hex digit lies below code point 103, so the table decides which it is. -/
theorem hexval_ofNat_mem_digits : ∀ n < 103, ∀ d < 16, hexval (Char.ofNat n) = some d →
    lowerDigits[d]? = some (Char.ofNat n) ∨ upperDigits[d]? = some (Char.ofNat n) := by
  decide

theorem hexval_bounds {ch : Char} {d : Nat} (h : hexval ch = some d) : ch.toNat < 103 ∧ d < 16 := by
  unfold hexval at h
  split at h
  · cases h; omega
  split at h
  · cases h; omega
  split at h
  · cases h; omega
  · cases h

theorem hexval_eq_some_iff (ch : Char) (d : Nat) :
    hexval ch = some d ↔ lowerDigits[d]? = some ch ∨ upperDigits[d]? = some ch := by
  constructor
  · intro h
    obtain ⟨hch, hd⟩ := hexval_bounds h
    simpa using hexval_ofNat_mem_digits ch.toNat hch d hd (by simpa using h)
  · rintro (h | h) <;> obtain ⟨hd, -⟩ := List.getElem?_eq_some_iff.1 h
    · obtain rfl : lowerDigit d = ch := Option.some.inj ((getElem?_lowerDigits d hd).symm.trans h)
      exact hexval_lowerDigit d hd
    · obtain rfl : upperDigit d = ch := Option.some.inj ((getElem?_upperDigits d hd).symm.trans h)
      exact hexval_upperDigit d hd

end Sys2Proof.Machine

/-! ## The digits HEX2B reads (R110, R112) -/

namespace Sys2Proof.Machine

/-- The mark ends in no hex digit, so digits alone have none. -/
theorem stripHexMark_of_hex {s : List Char} (h : ∀ ch ∈ s, (hexval ch).isSome = true) : stripHexMark s = s := by
  unfold stripHexMark
  split
  · exact absurd (h 'x' (by simp)) (by decide)
  · rfl

theorem hexDigits_cons (ch : Char) (s : List Char) :
    hexDigits (ch :: s) = (hexval ch).bind fun d => (hexDigits s).map (d :: ·) := by
  rw [hexDigits]
  cases hexval ch <;> cases hexDigits s <;> rfl

theorem hexDigits_eq_none_iff (s : List Char) : hexDigits s = none ↔ ∃ ch ∈ s, hexval ch = none := by
  induction s with
  | nil => simp [hexDigits]
  | cons ch s ih =>
    simp only [hexDigits_cons, List.mem_cons, exists_eq_or_imp, ← ih]
    cases hexval ch <;> simp

theorem hexDigits_eq_some_iff (s : List Char) (ds : List Nat) : hexDigits s = some ds ↔ s.map hexval = ds.map some := by
  induction s generalizing ds with
  | nil => cases ds <;> simp [hexDigits]
  | cons ch s ih => cases ds <;> simp [hexDigits_cons, Option.bind_eq_some_iff, ih, and_comm]

/-- An odd count of digits is read with one 0 in front (R110). -/
def padHex (s : List Char) : List Char := if s.length % 2 = 1 then '0' :: s else s

theorem padHex_length_even (s : List Char) : (padHex s).length % 2 = 0 := by
  unfold padHex
  split
  · simp only [List.length_cons]; omega
  · omega

theorem hexDigits_padHex (s : List Char) :
    hexDigits (padHex s) = (hexDigits s).map fun ds => if ds.length % 2 = 1 then 0 :: ds else ds := by
  have hzero : hexDigits ('0' :: s) = (hexDigits s).map (0 :: ·) := by
    rw [hexDigits_cons, show hexval '0' = some 0 by decide, Option.bind_some]
  cases h : hexDigits s with
  | none => unfold padHex; split <;> simp [hzero, h]
  | some ds =>
    have hlen : s.length = ds.length := by simpa using congrArg List.length ((hexDigits_eq_some_iff s ds).1 h)
    rw [padHex, hlen, Option.map_some]
    split
    · rw [hzero, h, Option.map_some]
    · exact h

theorem hex2b_eq (s : List Char) : hex2b s =
    ((hexDigits (padHex (stripHexMark s))).map digitPairs).elim (.error .codecError) .ok := by
  rw [hexDigits_padHex, hex2b]
  cases hexDigits (stripHexMark s) <;> rfl

theorem hex2b_eq_error_iff (s : List Char) :
    hex2b s = .error .codecError ↔ ∃ ch ∈ stripHexMark s, hexval ch = none := by
  rw [← hexDigits_eq_none_iff, hex2b]
  cases hexDigits (stripHexMark s) <;> simp

end Sys2Proof.Machine

/-! ## The digits of a byte sequence (R110, R117) -/

namespace Sys2Proof.Machine

/-- The two hex digits of each byte, in order. -/
def byteDigits : List Byte → List Nat
  | [] => []
  | v :: x => v.toNat / 16 :: v.toNat % 16 :: byteDigits x

theorem ofNat_digits_eq_iff {hi lo : Nat} (hhi : hi < 16) (hlo : lo < 16) (v : Byte) :
    BitVec.ofNat 8 (hi * 16 + lo) = v ↔ hi = v.toNat / 16 ∧ lo = v.toNat % 16 := by
  rw [← BitVec.toNat_inj, BitVec.toNat_ofNat]
  omega

theorem digitPairs_eq_iff {ds : List Nat} (heven : ds.length % 2 = 0) (hlt : ∀ d ∈ ds, d < 16) (x : List Byte) :
    digitPairs ds = x ↔ ds = byteDigits x := by
  fun_induction digitPairs ds generalizing x with
  | case1 hi lo ds ih =>
    cases x with
    | nil => simp [byteDigits]
    | cons v x =>
      obtain ⟨hhi, hlo, hds⟩ : hi < 16 ∧ lo < 16 ∧ ∀ d ∈ ds, d < 16 := by simpa using hlt
      have hlen : ds.length % 2 = 0 := by simp only [List.length_cons] at heven; omega
      simp [byteDigits, ofNat_digits_eq_iff hhi hlo, ih hlen hds, and_assoc]
  | case2 ds hds =>
    obtain rfl : ds = [] := by
      match ds with
      | [] => rfl
      | [_] => simp at heven
      | hi :: lo :: ds => exact absurd rfl (hds hi lo ds)
    cases x <;> simp [byteDigits]

/-- HEX2B in one equation: the digits read are those of the bytes. -/
theorem hex2b_eq_ok_iff (s : List Char) (x : List Byte) :
    hex2b s = .ok x ↔ (padHex (stripHexMark s)).map hexval = (byteDigits x).map some := by
  rw [hex2b_eq, ← hexDigits_eq_some_iff]
  cases h : hexDigits (padHex (stripHexMark s)) with
  | none => simp
  | some ds =>
    have hmap := (hexDigits_eq_some_iff _ ds).1 h
    have heven : ds.length % 2 = 0 := by
      rw [← padHex_length_even (stripHexMark s), ← List.length_map (f := hexval), hmap, List.length_map]
    have hlt : ∀ d ∈ ds, d < 16 := fun d hd => by
      obtain ⟨ch, -, hch⟩ := List.mem_map.1 (hmap ▸ List.mem_map_of_mem hd)
      exact (hexval_bounds hch).2
    simpa using digitPairs_eq_iff heven hlt x

/-- The same equation read at each byte's two positions. -/
theorem map_hexval_eq_byteDigits_iff (s : List Char) (x : List Byte) :
    s.map hexval = (byteDigits x).map some ↔ s.length = 2 * x.length ∧ ∀ k (hk : k < x.length),
      (s[2 * k]?).bind hexval = some (x[k].toNat / 16) ∧ (s[2 * k + 1]?).bind hexval = some (x[k].toNat % 16) := by
  induction x generalizing s with
  | nil => simp [byteDigits]
  | cons v x ih =>
    match s with
    | [] => simp [byteDigits]
    | [_] => simp [byteDigits]; omega
    | hi :: lo :: s =>
      simp only [byteDigits, List.map_cons, List.cons.injEq, ih, List.length_cons]
      constructor
      · rintro ⟨hhi, hlo, hlen, h⟩
        refine ⟨by omega, fun k hk => ?_⟩
        cases k with
        | zero => simp [hhi, hlo]
        | succ k => exact h k (by omega)
      · rintro ⟨hlen, h⟩
        obtain ⟨hhi, hlo⟩ := h 0 (by omega)
        exact ⟨hhi, hlo, by omega, fun k hk => h (k + 1) (by omega)⟩

theorem map_hexval_canonHex {digit : Nat → Char} (h : ∀ d < 16, hexval (digit d) = some d) (x : List Byte) :
    (canonHex digit x).map hexval = (byteDigits x).map some := by
  induction x with
  | nil => rfl
  | cons v x ih =>
    have hhi : v.toNat / 16 < 16 := by omega
    have hlo : v.toNat % 16 < 16 := by omega
    simp [canonHex, byteDigits, h _ hhi, h _ hlo, ih]

/-- Digits alone, as many as the bytes have, decode to the bytes with or without the mark (R117). -/
theorem hex2b_of_byteDigits {s : List Char} {x : List Byte} (h : s.map hexval = (byteDigits x).map some) :
    hex2b s = .ok x ∧ hex2b ('0' :: 'x' :: s) = .ok x := by
  have hhex : ∀ ch ∈ s, (hexval ch).isSome = true := fun ch hch => by
    obtain ⟨d, -, hd⟩ := List.mem_map.1 (h ▸ List.mem_map_of_mem hch)
    simp [← hd]
  have hpad : padHex s = s := by
    obtain ⟨hlen, -⟩ := (map_hexval_eq_byteDigits_iff s x).1 h
    rw [padHex, if_neg (by omega)]
  constructor
  · rwa [hex2b_eq_ok_iff, stripHexMark_of_hex hhex, hpad]
  · rwa [hex2b_eq_ok_iff, stripHexMark, hpad]

end Sys2Proof.Machine

/-! ## The display (R114) -/

namespace Sys2Proof.Machine

theorem joinTokens_cons_cons (v w : Nat) (x : List Nat) :
    joinTokens (v :: w :: x) = '0' :: 'x' :: lowerDigit (v / 16) :: lowerDigit (v % 16) :: ',' :: ' ' :: joinTokens (w :: x) :=
  rfl

theorem length_joinTokens (v : Nat) (x : List Nat) : (joinTokens (v :: x)).length = 6 * x.length + 4 := by
  induction x generalizing v with
  | nil => rfl
  | cons w x ih => simp only [joinTokens_cons_cons, List.length_cons, ih]; omega

/-- Each byte but the last takes six characters. -/
theorem drop_joinTokens {x : List Nat} {k : Nat} (hk : k < x.length) (u : List Char) :
    (joinTokens x ++ u).drop (6 * k) = joinTokens (x.drop k) ++ u := by
  induction k generalizing x with
  | zero => rfl
  | succ k ih =>
    match x with
    | [] => simp at hk
    | [v] => simp at hk
    | v :: w :: x =>
      rw [List.drop_succ_cons, ← ih (by simpa using hk), Nat.mul_succ, joinTokens_cons_cons]
      rfl

/-- The characters of the k-th byte stand at the front of what is left there. -/
theorem getElem?_joinTokens {x : List Nat} {k : Nat} (hk : k < x.length) (u : List Char) (i : Nat) :
    (joinTokens x ++ u)[6 * k + i]? = (joinTokens (x[k] :: x.drop (k + 1)) ++ u)[i]? := by
  rw [← List.getElem?_drop, drop_joinTokens hk, List.drop_eq_getElem_cons hk]

theorem b2hex_of_le {x : List Nat} (h : ∀ v ∈ x, v ≤ 255) : b2hex x = .ok ('[' :: (joinTokens x ++ [']'])) := by
  rw [b2hex, if_pos (by simpa using h)]
  rfl

theorem b2hex_of_gt {x : List Nat} (h : ∃ v ∈ x, 255 < v) : b2hex x = .error .codecError := by
  rw [b2hex, if_neg (by simpa using h)]

end Sys2Proof.Machine

/-! ## The statements of 41_host_codec.md -/

namespace Sys2Proof.Machine

/-- Settles O50: the statement's digits and its two readings of a string are the ones named above, so each clause is a fact
about the digits HEX2B reads. -/
theorem hexDecodesTheCanonicalForm : Obligations.HexDecodesTheCanonicalForm := by
  unfold Obligations.HexDecodesTheCanonicalForm
  intro lower upper unmarked padded
  have hunmarked : unmarked = stripHexMark := by
    funext s
    unfold stripHexMark
    split
    case h_1 => rfl
    case h_2 h => simp only [unmarked]
  have hpadded : padded = padHex := rfl
  rw [hunmarked, hpadded]
  refine ⟨hexval_eq_some_iff, hex2b_eq_error_iff, fun s x h => ?_, fun s hhex hodd => ?_, fun x s hlen h => ?_,
    fun x => ?_⟩
  · obtain ⟨hlen, hdigits⟩ := (map_hexval_eq_byteDigits_iff _ x).1 ((hex2b_eq_ok_iff s x).1 h)
    refine ⟨hlen.symm, fun k hk => ?_⟩
    obtain ⟨hhi, hlo⟩ := hdigits k hk
    exact ⟨_, _, hhi, hlo, by omega⟩
  · have hread : padHex s = '0' :: s := if_pos hodd
    have hzero : stripHexMark ('0' :: s) = '0' :: s :=
      stripHexMark_of_hex (List.forall_mem_cons.2 ⟨by decide, hhex⟩)
    have hfix : padHex ('0' :: s) = '0' :: s := by rw [padHex, if_neg (by simp only [List.length_cons]; omega)]
    refine ⟨?_, ?_⟩
    · rw [hex2b_eq, hex2b_eq, stripHexMark_of_hex hhex, hzero, hread, hfix]
    · rw [hex2b_eq, hex2b_eq, stripHexMark, hzero, hread, hfix]
  · exact hex2b_of_byteDigits ((map_hexval_eq_byteDigits_iff s x).2 ⟨hlen, h⟩)
  · obtain ⟨hlower, hlowerMarked⟩ := hex2b_of_byteDigits (map_hexval_canonHex hexval_lowerDigit x)
    obtain ⟨hupper, hupperMarked⟩ := hex2b_of_byteDigits (map_hexval_canonHex hexval_upperDigit x)
    exact ⟨hlower, hlowerMarked, hupper, hupperMarked⟩

/-- Settles O51: every position is read off the tokens that begin at its byte, and the bracket in front is no hex digit. -/
theorem displayRendersBytesAndIsNoHexString : Obligations.DisplayRendersBytesAndIsNoHexString := by
  unfold Obligations.DisplayRendersBytesAndIsNoHexString
  intro lower x
  refine ⟨b2hex_of_gt, fun hx => ⟨_, b2hex_of_le hx, ?_, rfl, ?_, fun k hk => ?_, ?_⟩⟩
  · cases x with
    | nil => rfl
    | cons v x => simp [length_joinTokens]; omega
  · rw [← List.cons_append, List.getLast?_concat]
  · have hv : x[k] / 16 < 16 := by have := hx x[k] (List.getElem_mem hk); omega
    have hat (i : Nat) : ('[' :: (joinTokens x ++ [']']))[6 * k + (i + 1)]? =
        (joinTokens (x[k] :: x.drop (k + 1)) ++ [']'])[i]? := getElem?_joinTokens hk [']'] i
    rw [hat 0, hat 1, hat 2, hat 3, hat 4, hat 5]
    have hlower : lower = lowerDigits := rfl
    rw [hlower, getElem?_lowerDigits _ hv, getElem?_lowerDigits _ (Nat.mod_lt _ (by decide))]
    cases hrest : x.drop (k + 1) with
    | nil => exact ⟨rfl, rfl, hv, rfl, rfl, fun h => absurd (List.drop_eq_nil_iff.1 hrest) (by omega)⟩
    | cons w y => exact ⟨rfl, rfl, hv, rfl, rfl, fun _ => ⟨rfl, rfl⟩⟩
  · exact (hex2b_eq_error_iff _).2 ⟨'[', by simp [stripHexMark], by decide⟩

end Sys2Proof.Machine
end

section
/-! PROOFS for 42_repack.md. Each of the source's two functions is read at one position; MBITS, read row by row, is the same
command as B2BITS but for the shape it leaves in T, so both have one outcome lemma per case. -/

/-! ## The source's two functions (R130, R131, R132) -/

namespace Sys2Proof.Machine

/-- Bit `k` of a byte, the most significant first (00_scope.md R13). -/
def msbFirst (k : Nat) (v : Byte) : Bit := BitVec.ofBool (v.getLsbD (7 - k))

/-- The base-2 value of group `m` of a bit sequence, the most significant bit first (R131). -/
def groupValue (bits : Nat → Option Bit) (m : Nat) : Nat :=
  ∑ k ∈ Finset.range 8, ((bits (8 * m + k)).elim 0 BitVec.toNat) * 2 ^ (7 - k)

theorem groupValue_congr {f g : Nat → Option Bit} {m : Nat} (h : ∀ k < 8, f (8 * m + k) = g (8 * m + k)) :
    groupValue f m = groupValue g m :=
  Finset.sum_congr rfl fun k hk => by rw [h k (Finset.mem_range.1 hk)]

theorem extractLsb'_one (v : Byte) (i : Nat) : v.extractLsb' i 1 = BitVec.ofBool (v.getLsbD i) := by
  ext j hj
  obtain rfl : j = 0 := by omega
  simp

theorem length_bits8 (v : Byte) : (bits8 v).length = 8 := rfl

theorem getElem?_bits8 (v : Byte) {k : Nat} (hk : k < 8) : (bits8 v)[k]? = some (msbFirst k v) := by
  interval_cases k <;> simp [bits8, msbFirst, extractLsb'_one]

theorem getElem?_bytesToBits (x : List Byte) (m : Nat) {k : Nat} (hk : k < 8) :
    (bytesToBits x)[8 * m + k]? = (x[m]?).map (msbFirst k) := by
  induction x generalizing m with
  | nil => rfl
  | cons v x ih =>
    cases m with
    | zero =>
      rw [bytesToBits, Nat.mul_zero, Nat.zero_add, List.getElem?_append_left (by rw [length_bits8]; exact hk)]
      exact getElem?_bits8 v hk
    | succ m =>
      rw [bytesToBits, List.getElem?_append_right (by rw [length_bits8]; omega), length_bits8,
        show 8 * (m + 1) + k - 8 = 8 * m + k by omega, List.getElem?_cons_succ]
      exact ih m

theorem getElem?_bytesToBits_eq_map (x : List Byte) (q : Nat) :
    (bytesToBits x)[q]? = (x[q / 8]?).map (msbFirst (q % 8)) := by
  rw [← getElem?_bytesToBits x (q / 8) (Nat.mod_lt q (by decide)), Nat.div_add_mod]

theorem bytesToBits_append (x y : List Byte) : bytesToBits (x ++ y) = bytesToBits x ++ bytesToBits y := by
  induction x with
  | nil => rfl
  | cons v x ih => simp [bytesToBits, ih]

theorem byte8_toNat (b0 b1 b2 b3 b4 b5 b6 b7 : Bit) : (byte8 b0 b1 b2 b3 b4 b5 b6 b7).toNat =
    b0.toNat * 128 + b1.toNat * 64 + b2.toNat * 32 + b3.toNat * 16 + b4.toNat * 8 + b5.toNat * 4 + b6.toNat * 2
      + b7.toNat := by
  rw [byte8, BitVec.toNat_ofNat]
  omega

theorem packGroups_bits8_append (v : Byte) (t : List Bit) : packGroups (bits8 v ++ t) = v :: packGroups t := by
  simp only [bits8, List.cons_append, List.nil_append, packGroups, List.cons.injEq, and_true, ← BitVec.toNat_inj,
    byte8_toNat, BitVec.extractLsb'_toNat, Nat.shiftRight_eq_div_pow]
  omega

theorem packGroups_bytesToBits (x : List Byte) : packGroups (bytesToBits x) = x := by
  induction x with
  | nil => rfl
  | cons v x ih => rw [bytesToBits, packGroups_bits8_append, ih]

theorem getElem?_packGroups (t : List Bit) {m : Nat} (hm : m < t.length / 8) :
    ((packGroups t)[m]?).map BitVec.toNat = some (groupValue (t[·]?) m) := by
  fun_induction packGroups t generalizing m with
  | case1 b0 b1 b2 b3 b4 b5 b6 b7 t ih =>
    cases m with
    | zero => simp [groupValue, Finset.sum_range_succ, byte8_toNat]
    | succ m =>
      rw [List.getElem?_cons_succ, ih (by simp only [List.length_cons] at hm; omega)]
      simp [groupValue, Nat.mul_succ, Nat.add_right_comm _ 8]
  | case2 t ht =>
    have hlen := packGroups_length t
    rw [packGroups.eq_2 t ht, List.length_nil] at hlen
    omega

theorem bitsToBytes_eq_some_iff (t : List Bit) (y : List Byte) :
    bitsToBytes t = some y ↔ t.length % 8 = 0 ∧ packGroups t = y := by
  simp [bitsToBytes]

end Sys2Proof.Machine

/-! ## Reading operands and storing a result -/

namespace Sys2Proof.Machine

variable {s : State}

theorem collect_succ {α : Type} (get : Nat → Except Fault α) (i n : Nat) :
    collect get i (n + 1) = (get i).bind fun v => (collect get (i + 1) n).map (v :: ·) := by
  rw [collect]
  cases get i with
  | error f => rfl
  | ok v => cases collect get (i + 1) n <;> rfl

/-- Reads of adjacent ranges are one read. -/
theorem collect_add {α : Type} (get : Nat → Except Fault α) (i n m : Nat) :
    collect get i (n + m) = (collect get i n).bind fun vs => (collect get (i + n) m).map (vs ++ ·) := by
  induction n generalizing i with
  | zero =>
    rw [Nat.zero_add, Nat.add_zero]
    cases collect get i m <;> rfl
  | succ n ih =>
    rw [show n + 1 + m = n + m + 1 by omega, show i + (n + 1) = i + 1 + n by omega, collect_succ, collect_succ, ih]
    cases get i with
    | error f => rfl
    | ok v =>
      cases collect get (i + 1) n with
      | error f => rfl
      | ok vs => cases collect get (i + 1 + n) m <;> rfl

/-- Reading a matrix row by row reads its elements in order, and stops at the same one (00_scope.md R12). -/
theorem map_flatten_collect_readRow (s : State) (x : Buffer) (c i n : Nat) :
    (collect (readRow s x c) i n).map List.flatten = readElems s x (i * c) (n * c) := by
  induction n generalizing i with
  | zero => rw [Nat.zero_mul]; rfl
  | succ n ih =>
    have hsplit : readElems s x (i * c) (c + n * c) =
        (readRow s x c i).bind fun vs => (readElems s x (i * c + c) (n * c)).map (vs ++ ·) := collect_add ..
    rw [Nat.succ_mul, Nat.add_comm (n * c), hsplit, ← Nat.succ_mul, ← ih, collect_succ]
    cases readRow s x c i with
    | error f => rfl
    | ok row => cases collect (readRow s x c) (i + 1) n <;> rfl

theorem shapeValid_iff_fitsIn (x : Buffer) : s.shapeValid x = true ↔ FitsIn (x.capacity s.cfg) (s.shape x) :=
  Shape.valid_iff ..

theorem readElems_of_unwritten {x : Buffer} {n : Nat} (h : ∃ k < n, s.elem x k = none) :
    ∃ f, readElems s x 0 n = .error f := by
  cases hread : readElems s x 0 n with
  | error f => exact ⟨f, rfl⟩
  | ok vs =>
    obtain ⟨k, hk, hnone⟩ := h
    have hsome := (readElems_isOk_iff ..).1 ⟨vs, hread⟩ k hk
    simp [hnone] at hsome

theorem readElems_of_written {x : Buffer} {n : Nat} (h : ∀ k < n, (s.elem x k).isSome = true) :
    ∃ vs, readElems s x 0 n = .ok vs ∧ vs.length = n ∧ ∀ k < n, vs[k]? = s.elem x k := by
  obtain ⟨vs, hread⟩ := (readElems_isOk_iff s x 0 n).2 (by simpa using h)
  obtain ⟨hlen, hval⟩ := (readElems_eq_ok_iff ..).1 hread
  refine ⟨vs, hread, hlen, fun k hk => ?_⟩
  rw [← hlen] at hk
  rw [List.getElem?_eq_getElem hk, ← hval k hk, Nat.zero_add]

variable {x : Buffer} {vs : List (BitVec x.width)} {sh : Shape}

/-- The elements after a store: its sequence, and past its end what was there before. -/
theorem elem_store (k : Nat) : ((Effect.store x vs sh).apply s).elem x k = if k < vs.length then vs[k]? else s.elem x k := by
  simp [Effect.apply, State.elem_writeElems]

theorem elem_store_of_lt {k : Nat} (hk : k < vs.length) : ((Effect.store x vs sh).apply s).elem x k = vs[k]? :=
  (elem_store k).trans (if_pos hk)

theorem elem_store_of_le {k : Nat} (hk : vs.length ≤ k) : ((Effect.store x vs sh).apply s).elem x k = s.elem x k :=
  (elem_store k).trans (if_neg (Nat.not_lt.2 hk))

theorem readElems_store : readElems ((Effect.store x vs sh).apply s) x 0 vs.length = .ok vs :=
  (readElems_eq_ok_iff ..).2 ⟨rfl, fun k hk => by
    rw [Nat.zero_add, elem_store_of_lt hk, List.getElem?_eq_getElem hk]⟩

end Sys2Proof.Machine

/-! ## B2BITS and MBITS (R133, R135) -/

namespace Sys2Proof.Machine

variable {s : State} {sh : Shape}

/-- Ends a command that stores bits in T, whose shape becomes `sh`. -/
def storeBits (s : State) (bits : List Bit) (sh : Shape) : State := (Effect.store .t bits sh).apply s

/-- A to bits, into T, whose shape becomes `sh`. -/
def bitsCommand (sh : Shape) (s : State) : Host.Outcome State Fault Refusal :=
  if s.shapeValid .a then
    onOperands (readElems s .a 0 (s.inUse .a)) fun x => storeBits s (bytesToBits x) sh
  else .next (s.fail .shapeInvalid)

/-- The shape B2BITS leaves in T: one row. -/
def flatBitsShape (s : State) : Shape := Shape.ofCounts 1 (8 * s.inUse .a)

/-- The shape MBITS leaves in T: A's rows, eight times as wide. -/
def rowBitsShape (s : State) : Shape := Shape.ofCounts s.shapeA.rows.toNat (8 * s.shapeA.cols.toNat)

theorem exec_b2bits (s : State) : exec .b2bits s = bitsCommand (flatBitsShape s) s := rfl

theorem bytesToBits_flatten (rows : List (List Byte)) : bytesToBits rows.flatten = rows.flatMap bytesToBits := by
  induction rows with
  | nil => rfl
  | cons row rows ih => rw [List.flatten_cons, bytesToBits_append, ih, List.flatMap_cons]

/-- Rows written from element 0 on are the bits of the whole matrix in order. -/
theorem writeBitRows_eq_bytesToBits_flatten {c : Nat} {rows : List (List Byte)} (h : ∀ row ∈ rows, row.length = c)
    (s : State) : writeBitRows c s 0 rows = s.writeElems .t 0 (bytesToBits rows.flatten) :=
  (writeBitRows_eq_writeElems h s 0).trans
    (congrArg₂ (s.writeElems .t) (Nat.zero_mul _) (bytesToBits_flatten rows).symm)

/-- MBITS reads A's rows in order and writes their bits one after another, so it is B2BITS but for the shape. -/
theorem exec_mbits (s : State) : exec .mbits s = bitsCommand (rowBitsShape s) s := by
  have hread := map_flatten_collect_readRow s .a s.shapeA.cols.toNat 0 s.shapeA.rows.toNat
  rw [Nat.zero_mul] at hread
  simp only [exec, execMbits, bitsCommand, State.inUse, State.shape_a, Shape.count, ← hread]
  split
  · rcases hrows : collect (readRow s .a s.shapeA.cols.toNat) 0 s.shapeA.rows.toNat with f | (rows : List (List Byte))
    · rfl
    · exact congrArg (fun u => Host.Outcome.next (u.setShape .t (rowBitsShape s)).succeed)
        (writeBitRows_eq_bytesToBits_flatten (length_of_mem_rows hrows) s)
  · rfl

theorem bitsCommand_of_not_fits (h : ¬ FitsIn s.cfg.cap s.shapeA) : bitsCommand sh s = .next (s.failedWith 3) :=
  if_neg (mt (shapeValid_iff_fitsIn .a).1 h)

theorem bitsCommand_of_unwritten (hfit : FitsIn s.cfg.cap s.shapeA) (h : ∃ k < s.inUse .a, s.elem .a k = none) :
    ∃ f, bitsCommand sh s = .fault f := by
  obtain ⟨f, hread⟩ := readElems_of_unwritten h
  exact ⟨f, by rw [bitsCommand, if_pos ((shapeValid_iff_fitsIn .a).2 hfit), hread, onOperands_error]⟩

theorem bitsCommand_of_written (hfit : FitsIn s.cfg.cap s.shapeA) (h : s.operandsWritten .a) :
    ∃ x : List Byte, x.length = s.inUse .a ∧ (∀ k < s.inUse .a, x[k]? = s.elem .a k) ∧
      ∀ sh, bitsCommand sh s = .next (storeBits s (bytesToBits x) sh) := by
  obtain ⟨x, hread, hlen, hval⟩ := readElems_of_written h
  exact ⟨x, hlen, hval, fun sh => by rw [bitsCommand, if_pos ((shapeValid_iff_fitsIn .a).2 hfit), hread, onOperands_ok]⟩

/-- The success case of both commands: T's elements one by one, and nothing else but STATUS and SHAPE_T changed. -/
theorem bitsCommand_writes (hfit : FitsIn s.cfg.cap s.shapeA) (h : s.operandsWritten .a) :
    ∃ t, bitsCommand sh s = .next t ∧ t = { s with ecode := 0, shapeT := sh, bufT := t.bufT } ∧
      (∀ k < 8 * s.inUse .a, t.elem .t k = (s.elem .a (k / 8)).map (msbFirst (k % 8))) ∧
      ∀ k, 8 * s.inUse .a ≤ k → t.elem .t k = s.elem .t k := by
  obtain ⟨x, hlen, hval, hrun⟩ := bitsCommand_of_written hfit h
  have hbits : (bytesToBits x).length = 8 * s.inUse .a := by rw [bytesToBits_length, hlen]
  have hbyte : ∀ k < 8 * s.inUse .a, (bytesToBits x)[k]? = (s.elem .a (k / 8)).map (msbFirst (k % 8)) := fun k hk =>
    (getElem?_bytesToBits_eq_map x k).trans (congrArg (Option.map _) (hval (k / 8) (by omega)))
  exact ⟨_, hrun sh, rfl, fun k hk => (elem_store_of_lt (hk.trans_eq hbits.symm)).trans (hbyte k hk),
    fun k hk => elem_store_of_le (hbits.trans_le hk)⟩

end Sys2Proof.Machine

/-! ## BITS2B (R134) -/

namespace Sys2Proof.Machine

variable {s : State}

/-- Bytes as R's 9-bit elements. -/
def zeroExtended (y : List Byte) : List Sum := y.map fun v => v.setWidth 9

theorem length_zeroExtended (y : List Byte) : (zeroExtended y).length = y.length := List.length_map ..

theorem map_toNat_getElem?_zeroExtended (y : List Byte) (m : Nat) :
    ((zeroExtended y)[m]?).map BitVec.toNat = (y[m]?).map BitVec.toNat := by
  have hvalue : BitVec.toNat ∘ (fun v : Byte => v.setWidth 9) = BitVec.toNat :=
    funext fun v => BitVec.toNat_setWidth_of_le (by decide)
  rw [zeroExtended, List.getElem?_map, Option.map_map, hvalue]

/-- Ends a command that stores bytes in R, whose shape becomes one row of `n` elements. -/
def storeByteRow (s : State) (y : List Byte) (n : Nat) : State :=
  (Effect.store .r (zeroExtended y) (Shape.ofCounts 1 n)).apply s

/-- A byte stored in R keeps its value. -/
theorem map_toNat_storeByteRow (y : List Byte) (n : Nat) {m : Nat} (hm : m < y.length) :
    ((storeByteRow s y n).elem .r m).map BitVec.toNat = (y[m]?).map BitVec.toNat :=
  (congrArg _ (elem_store_of_lt (hm.trans_eq (length_zeroExtended y).symm))).trans (map_toNat_getElem?_zeroExtended y m)

theorem elem_storeByteRow_of_le (y : List Byte) (n : Nat) {m : Nat} (hm : y.length ≤ m) :
    (storeByteRow s y n).elem .r m = s.elem .r m :=
  elem_store_of_le ((length_zeroExtended y).trans_le hm)

theorem exec_bits2b_of_not_fits (h : ¬ FitsIn (8 * s.cfg.cap) s.shapeT) : exec .bits2b s = .next (s.failedWith 3) :=
  if_neg (mt (shapeValid_iff_fitsIn .t).1 h)

theorem exec_bits2b_of_not_aligned (hfit : FitsIn (8 * s.cfg.cap) s.shapeT) (h : s.inUse .t % 8 ≠ 0) :
    exec .bits2b s = .next (s.failedWith 2) :=
  (if_pos ((shapeValid_iff_fitsIn .t).2 hfit)).trans (if_neg h)

/-- After both checks only the reading of T can stop BITS2B. -/
theorem exec_bits2b_of_aligned (hfit : FitsIn (8 * s.cfg.cap) s.shapeT) (h8 : s.inUse .t % 8 = 0) :
    exec .bits2b s = onOperands (readElems s .t 0 (s.inUse .t)) fun bits =>
      storeByteRow s (packGroups bits) (s.inUse .t / 8) :=
  (if_pos ((shapeValid_iff_fitsIn .t).2 hfit)).trans (if_pos h8)

theorem exec_bits2b_of_unwritten (hfit : FitsIn (8 * s.cfg.cap) s.shapeT) (h8 : s.inUse .t % 8 = 0)
    (h : ∃ k < s.inUse .t, s.elem .t k = none) : ∃ f, exec .bits2b s = .fault f := by
  obtain ⟨f, hread⟩ := readElems_of_unwritten h
  exact ⟨f, by rw [exec_bits2b_of_aligned hfit h8, hread, onOperands_error]⟩

theorem exec_bits2b_of_readElems {bits : List Bit} (hfit : FitsIn (8 * s.cfg.cap) s.shapeT) (h8 : s.inUse .t % 8 = 0)
    (hread : readElems s .t 0 (s.inUse .t) = .ok bits) :
    exec .bits2b s = .next (storeByteRow s (packGroups bits) (s.inUse .t / 8)) := by
  rw [exec_bits2b_of_aligned hfit h8, hread]
  rfl

/-- The success case: R's elements one by one, and nothing else but STATUS and SHAPE_R changed. -/
theorem exec_bits2b_writes (hfit : FitsIn (8 * s.cfg.cap) s.shapeT) (h8 : s.inUse .t % 8 = 0)
    (h : s.operandsWritten .t) : ∃ t, exec .bits2b s = .next t ∧
      t = { s with ecode := 0, shapeR := Shape.ofCounts 1 (s.inUse .t / 8), bufR := t.bufR } ∧
      (∀ m < s.inUse .t / 8, (t.elem .r m).map BitVec.toNat = some (groupValue (s.elem .t) m)) ∧
      ∀ m, s.inUse .t / 8 ≤ m → t.elem .r m = s.elem .r m := by
  obtain ⟨(bits : List Bit), hread, hlen, hval⟩ := readElems_of_written h
  have hbytes : (packGroups bits).length = s.inUse .t / 8 := (packGroups_length bits).trans (congrArg (· / 8) hlen)
  refine ⟨_, exec_bits2b_of_readElems hfit h8 hread, rfl, fun m hm => ?_,
    fun m hm => elem_storeByteRow_of_le _ _ (hbytes.trans_le hm)⟩
  calc ((storeByteRow s (packGroups bits) (s.inUse .t / 8)).elem .r m).map BitVec.toNat
    _ = ((packGroups bits)[m]?).map BitVec.toNat := map_toNat_storeByteRow _ _ (hm.trans_eq hbytes.symm)
    _ = some (groupValue (bits[·]?) m) := getElem?_packGroups bits (hlen ▸ hm)
    _ = some (groupValue (s.elem .t) m) := congrArg some (groupValue_congr fun k hk => hval _ (by omega))

/-- BITS2B on bits that a command stored, with a valid shape of as many elements, brings the bytes back. -/
theorem exec_bits2b_storeBits {x : List Byte} {sh : Shape} (hfit : FitsIn (8 * s.cfg.cap) sh)
    (hcount : sh.count = 8 * x.length) : exec .bits2b (storeBits s (bytesToBits x) sh) =
      .next (storeByteRow (storeBits s (bytesToBits x) sh) x x.length) := by
  have huse : (storeBits s (bytesToBits x) sh).inUse .t = (bytesToBits x).length := by
    rw [bytesToBits_length, ← hcount]
    rfl
  have hread : readElems (storeBits s (bytesToBits x) sh) .t 0 ((storeBits s (bytesToBits x) sh).inUse .t) =
      .ok (bytesToBits x) := huse ▸ readElems_store
  have hrun := exec_bits2b_of_readElems hfit (by rw [huse, bytesToBits_length]; omega) hread
  rwa [packGroups_bytesToBits, huse, bytesToBits_length, Nat.mul_div_cancel_left _ (by decide)] at hrun

end Sys2Proof.Machine

/-! ## The shapes of T's bits (R133, R135) -/

namespace Sys2Proof.Machine

variable {s : State}

/-- The bits of a valid A fit T, by row and together, and T's capacity fits a shape register (10_state.md R28). -/
theorem bitCounts_bounds (hs : s.Inv) (hfit : FitsIn s.cfg.cap s.shapeA) : 1 ≤ 8 * s.cfg.cap ∧ 8 * s.cfg.cap < 4096 ∧
    8 * s.shapeA.cols.toNat ≤ 8 * s.cfg.cap ∧ 8 * s.inUse .a ≤ 8 * s.cfg.cap := by
  obtain ⟨hpos, hlt⟩ := capacity_bounds hs.config .t
  obtain ⟨-, hcols, huse⟩ := hfit
  exact ⟨hpos, hlt, Nat.mul_le_mul_left 8 hcols, Nat.mul_le_mul_left 8 huse⟩

theorem flatBitsShape_fits (hs : s.Inv) (hfit : FitsIn s.cfg.cap s.shapeA) :
    FitsIn (8 * s.cfg.cap) (flatBitsShape s) ∧ (flatBitsShape s).count = 8 * s.inUse .a := by
  obtain ⟨hpos, hlt, -, huse⟩ := bitCounts_bounds hs hfit
  constructor
  · exact (Shape.valid_iff ..).1 (Shape.valid_ofCounts hlt hpos huse (by omega))
  · rw [flatBitsShape, Shape.ofCounts_count (by omega) (by omega), Nat.one_mul]

theorem rowBitsShape_fits (hs : s.Inv) (hfit : FitsIn s.cfg.cap s.shapeA) :
    FitsIn (8 * s.cfg.cap) (rowBitsShape s) ∧ (rowBitsShape s).count = 8 * s.inUse .a := by
  obtain ⟨-, hlt, hcols, huse⟩ := bitCounts_bounds hs hfit
  obtain ⟨hrows, -, -⟩ := hfit
  have hmul : s.shapeA.rows.toNat * (8 * s.shapeA.cols.toNat) = 8 * s.inUse .a := Nat.mul_left_comm ..
  constructor
  · exact (Shape.valid_iff ..).1 (Shape.valid_ofCounts hlt (by omega) hcols (hmul.trans_le huse))
  · rw [rowBitsShape, Shape.ofCounts_count (by omega) (by omega), hmul]

/-- B2BITS and MBITS alike store A's bits in T, with a valid shape that holds just them. -/
theorem exec_bitsCommand {i : Instr} (hi : i = .b2bits ∨ i = .mbits) (hs : s.Inv) (hfit : FitsIn s.cfg.cap s.shapeA) :
    ∃ sh, exec i s = bitsCommand sh s ∧ FitsIn (8 * s.cfg.cap) sh ∧ sh.count = 8 * s.inUse .a := by
  rcases hi with rfl | rfl
  · exact ⟨_, exec_b2bits s, flatBitsShape_fits hs hfit⟩
  · exact ⟨_, exec_mbits s, rowBitsShape_fits hs hfit⟩

end Sys2Proof.Machine

/-! ## FLAT (R137) -/

namespace Sys2Proof.Machine

variable {s : State} {x : Buffer}

theorem exec_flat_of_not_fits (h : ¬ FitsIn (x.capacity s.cfg) (s.shape x)) :
    exec (.flat x) s = .next (s.failedWith 3) :=
  if_neg (mt (shapeValid_iff_fitsIn x).1 h)

theorem exec_flat_of_fits (h : FitsIn (x.capacity s.cfg) (s.shape x)) :
    exec (.flat x) s = .next ((Effect.setShape x (Shape.ofCounts 1 (s.inUse x))).apply s) :=
  if_pos ((shapeValid_iff_fitsIn x).2 h)

end Sys2Proof.Machine

/-! ## The statements of 42_repack.md -/

namespace Sys2Proof.Machine

/-- Settles O23, each function read at one position. -/
theorem bytesAndBitsConvertMostSignificantFirst : Obligations.BytesAndBitsConvertMostSignificantFirst := by
  refine ⟨fun x => ⟨bytesToBits_length x, fun m k hk => getElem?_bytesToBits x m hk⟩, fun t => by simp [bitsToBytes],
    fun t y h => ?_, fun x => (bitsToBytes_eq_some_iff ..).2 ⟨by simp, packGroups_bytesToBits x⟩⟩
  obtain ⟨-, rfl⟩ := (bitsToBytes_eq_some_iff t y).1 h
  rw [packGroups_length]
  exact ⟨rfl, fun m hm => getElem?_packGroups t hm⟩

/-- Settles O24, as the case of one row. -/
theorem b2bitsWritesTheBitsOfA : Obligations.B2bitsWritesTheBitsOfA := by
  intro s hs n
  rw [exec_b2bits]
  refine ⟨by decide, bitsCommand_of_not_fits, bitsCommand_of_unwritten, fun hfit hw => ⟨?_, ?_⟩⟩
  · obtain ⟨-, hlt, -, huse⟩ := bitCounts_bounds hs hfit
    exact huse.trans_lt hlt
  · obtain ⟨t, hrun, hframe, hbits, hrest⟩ := bitsCommand_writes (sh := flatBitsShape s) hfit hw
    refine ⟨t, hrun, hframe, fun k => ?_⟩
    by_cases hk : k < 8 * n
    · exact (hbits k hk).trans (if_pos hk).symm
    · exact (hrest k (Nat.not_lt.1 hk)).trans (if_neg hk).symm

/-- Settles O25, by the checks in their order and the outcome of reading T. -/
theorem bits2bWritesTheBytesOfT : Obligations.Bits2bWritesTheBytesOfT :=
  fun _ _ => ⟨by decide, exec_bits2b_of_not_fits, exec_bits2b_of_not_aligned, exec_bits2b_of_unwritten,
    exec_bits2b_writes⟩

/-- Settles O26, as the case of as many rows: bit q of row i is bit 8·(i·c) + q of the matrix in order. -/
theorem mbitsExpandsEachRowOfA : Obligations.MbitsExpandsEachRowOfA := by
  intro s hs r c
  rw [exec_mbits]
  refine ⟨by decide, bitsCommand_of_not_fits, bitsCommand_of_unwritten, fun hfit hw => ⟨?_, ?_⟩⟩
  · obtain ⟨-, hlt, hcols, -⟩ := bitCounts_bounds hs hfit
    exact hcols.trans_lt hlt
  · have hshape : rowBitsShape s = ⟨s.shapeA.rows, BitVec.ofNat 12 (8 * c)⟩ :=
      congrArg (Shape.mk · _) (BitVec.ofNat_toNat ..)
    obtain ⟨t, hrun, hframe, hbits, hrest⟩ := bitsCommand_writes (sh := rowBitsShape s) hfit hw
    refine ⟨t, hrun, hshape ▸ hframe, fun i hi q hq => ?_, hrest⟩
    have hrow : i * (8 * c) = 8 * (i * c) := Nat.mul_left_comm ..
    have hend : (i + 1) * c ≤ r * c := Nat.mul_le_mul_right c hi
    have huse : s.inUse .a = r * c := rfl
    rw [Nat.succ_mul] at hend
    rw [hbits _ (by omega), hrow, Nat.mul_add_div (by decide), Nat.mul_add_mod]
    rfl

/-- Settles O27: FLAT sets one shape. -/
theorem flatMakesOneRow : Obligations.FlatMakesOneRow := by
  intro s x hs n
  obtain ⟨-, hdecode⟩ := wordSelectsCommandByMaskAndMatch
  refine ⟨fun w hmatch hsel => ?_, exec_flat_of_not_fits, fun hfit => ⟨?_, _, exec_flat_of_fits hfit, ?_, fun y => ?_⟩⟩
  · obtain ⟨-, -, -, -, hflat, -, -⟩ := hdecode w
    exact (hflat x).2 ⟨hmatch, hsel⟩
  · obtain ⟨-, -, huse⟩ := hfit
    exact huse.trans_lt (capacity_bounds hs.config x).2
  · cases x <;> rfl
  · simp [Effect.apply, Shape.ofCounts, n, State.inUse, Shape.count]

/-- Settles O28: BITS2B reads back the bits that either command stored. -/
theorem bitsAndBackLeaveFlatAInR : Obligations.BitsAndBackLeaveFlatAInR := by
  intro s i hs hi hfit hw
  obtain ⟨sh, hexec, hsh, hcount⟩ := exec_bitsCommand hi hs hfit
  obtain ⟨x, hlen, hval, hrun⟩ := bitsCommand_of_written hfit hw
  refine ⟨_, _, hexec.trans (hrun sh), exec_bits2b_storeBits hsh (hlen ▸ hcount), rfl, rfl, ?_, fun k hk => ?_⟩
  · obtain ⟨-, hlt, -, huse⟩ := bitCounts_bounds hs hfit
    exact (Nat.mod_eq_of_lt (by omega)).trans hlen
  · rw [map_toNat_storeByteRow x _ (hlen ▸ hk), hval k hk]
    rfl

/-- Settles O29: the two commands store the same bits, and FLAT replaces the one thing in which they differ. -/
theorem mbitsThenFlatIsB2bits : Obligations.MbitsThenFlatIsB2bits := by
  intro s hs hfit hw
  obtain ⟨hsh, hcount⟩ := rowBitsShape_fits hs hfit
  obtain ⟨x, -, -, hrun⟩ := bitsCommand_of_written hfit hw
  refine ⟨_, _, (exec_mbits s).trans (hrun _), exec_flat_of_fits hsh, ?_⟩
  rw [exec_b2bits, hrun, flatBitsShape, ← hcount]
  rfl

end Sys2Proof.Machine
end

section
/-! PROOFS for 43_matrix.md. MXOR and MSUM are one command with two lanes, so each outcome is said once, of any
lane, and the law of operand order of any commutative one; the two differ only in what their lanes compute. -/

/-! ## The two lanes (R150, R153, R157) -/

namespace Sys2Proof.Machine

theorem toNat_xorLane (a b : Byte) : (xorLane a b).toNat = a.toNat ^^^ b.toNat := by
  rw [xorLane, BitVec.toNat_setWidth_of_le (by decide), BitVec.toNat_xor]

/-- Two Bytes add up to less than 512, so the 9-bit sum is exact (R154). -/
theorem toNat_sumLane (a b : Byte) : (sumLane a b).toNat = a.toNat + b.toNat := by
  have hsum : a.toNat + b.toNat < 2 ^ 9 := by omega
  rw [sumLane, BitVec.toNat_add, BitVec.toNat_setWidth_of_le (by decide), BitVec.toNat_setWidth_of_le (by decide),
    Nat.mod_eq_of_lt hsum]

theorem xorLane_comm (a b : Byte) : xorLane a b = xorLane b a := by rw [xorLane, xorLane, BitVec.xor_comm]

theorem sumLane_comm (a b : Byte) : sumLane a b = sumLane b a := BitVec.add_comm ..

theorem xorLane_self (a : Byte) : xorLane a a = 0 := by rw [xorLane, BitVec.xor_self]; rfl

/-- A sum is the exclusive or, the sum without carries, and the carries, each one place up. -/
theorem add_eq_xor_add_two_mul_and (m n : Nat) : m + n = (m ^^^ n) + 2 * (m &&& n) := by
  induction m using Nat.strong_induction_on generalizing n with
  | _ m ih =>
    rcases Nat.eq_zero_or_pos m with rfl | hm
    · simp
    · have hhalf := ih (m / 2) (by omega) (n / 2)
      rw [← Nat.xor_div_two, ← Nat.and_div_two] at hhalf
      have hxor : (m ^^^ n) % 2 = (m + n) % 2 := Nat.xor_mod_two_eq
      have hand : (m &&& n) % 2 = 1 ↔ m % 2 = 1 ∧ n % 2 = 1 := Nat.and_mod_two_eq_one
      omega

/-- The lanes agree exactly where no carry arises (R157). -/
theorem xorLane_eq_sumLane_iff (a b : Byte) : xorLane a b = sumLane a b ↔ a &&& b = 0 := by
  have hzero : a &&& b = 0 ↔ a.toNat &&& b.toNat = 0 := by rw [← BitVec.toNat_inj, BitVec.toNat_and]; rfl
  rw [hzero, ← BitVec.toNat_inj, toNat_xorLane, toNat_sumLane, add_eq_xor_add_two_mul_and]
  omega

end Sys2Proof.Machine

/-! ## The command of any lane (R150 to R153) -/

namespace Sys2Proof.Machine

variable {s t : State} {lane : Byte → Byte → Sum}

theorem operandShapesValid_iff :
    (s.shapeValid .a && s.shapeValid .b) = true ↔ FitsIn s.cfg.cap s.shapeA ∧ FitsIn s.cfg.cap s.shapeB :=
  Bool.and_eq_true_iff.trans (and_congr (shapeValid_iff_fitsIn .a) (shapeValid_iff_fitsIn .b))

theorem matrixCommand_of_not_fits (h : ¬ (FitsIn s.cfg.cap s.shapeA ∧ FitsIn s.cfg.cap s.shapeB)) :
    matrixCommand lane s = .next (s.failedWith 3) :=
  if_neg (mt operandShapesValid_iff.1 h)

theorem matrixCommand_of_not_conform (hfit : FitsIn s.cfg.cap s.shapeA ∧ FitsIn s.cfg.cap s.shapeB)
    (h : ¬ Conforms s.shapeA s.shapeB) : matrixCommand lane s = .next (s.failedWith 1) :=
  (if_pos (operandShapesValid_iff.2 hfit)).trans (if_neg (mt (conform_iff ..).1 h))

/-- Ends a matrix command that stores its lanes in R, whose shape becomes A's (R152). -/
def storeLanes (s : State) (y : List Sum) : State := (Effect.store .r y s.shapeA).apply s

/-- After both checks only the reading of a lane can stop a matrix command. -/
theorem matrixCommand_of_conform (hfit : FitsIn s.cfg.cap s.shapeA ∧ FitsIn s.cfg.cap s.shapeB)
    (hconf : Conforms s.shapeA s.shapeB) :
    matrixCommand lane s = onOperands (collect (readLane lane s) 0 (s.inUse .a)) (storeLanes s) :=
  (if_pos (operandShapesValid_iff.2 hfit)).trans (if_pos ((conform_iff ..).2 hconf))

/-- The lanes can be read exactly when both operands are written in every place in use of A. -/
theorem collect_readLane_isOk_iff : (∃ y, collect (readLane lane s) 0 (s.inUse .a) = .ok y) ↔
    ∀ k < s.inUse .a, (s.elem .a k).isSome = true ∧ (s.elem .b k).isSome = true := by
  simp only [collect_isOk_iff, readLane_eq_ok_iff, Nat.zero_add, Option.isSome_iff_exists]
  exact forall₂_congr fun k _ => ⟨fun ⟨_, a, b, ha, hb, _⟩ => ⟨⟨a, ha⟩, ⟨b, hb⟩⟩,
    fun ⟨⟨a, ha⟩, ⟨b, hb⟩⟩ => ⟨_, a, b, ha, hb, rfl⟩⟩

theorem matrixCommand_of_unwritten (hfit : FitsIn s.cfg.cap s.shapeA ∧ FitsIn s.cfg.cap s.shapeB)
    (hconf : Conforms s.shapeA s.shapeB) (h : ∃ k < s.inUse .a, s.elem .a k = none ∨ s.elem .b k = none) :
    ∃ f, matrixCommand lane s = .fault f := by
  rw [matrixCommand_of_conform hfit hconf]
  cases hread : collect (readLane lane s) 0 (s.inUse .a) with
  | error f => exact ⟨f, rfl⟩
  | ok y =>
    obtain ⟨k, hk, hnone⟩ := h
    obtain ⟨ha, hb⟩ := collect_readLane_isOk_iff.1 ⟨y, hread⟩ k hk
    rcases hnone with hnone | hnone
    · simp [hnone] at ha
    · simp [hnone] at hb

theorem matrixCommand_of_written (hfit : FitsIn s.cfg.cap s.shapeA ∧ FitsIn s.cfg.cap s.shapeB)
    (hconf : Conforms s.shapeA s.shapeB)
    (h : ∀ k < s.inUse .a, (s.elem .a k).isSome = true ∧ (s.elem .b k).isSome = true) :
    ∃ y, y.length = s.inUse .a ∧ matrixCommand lane s = .next (storeLanes s y) := by
  obtain ⟨y, hread⟩ := collect_readLane_isOk_iff.2 h
  exact ⟨y, ((collect_eq_ok_iff ..).1 hread).1, by rw [matrixCommand_of_conform hfit hconf, hread, onOperands_ok]⟩

/-- Where a matrix command succeeds, each element of the result is its lane's value. -/
theorem elem_of_matrixCommand (h : matrixCommand lane s = .next t) (ht : t.ecode = 0) {k : Nat} (hk : k < s.inUse .a)
    {a b : Byte} (ha : s.elem .a k = some a) (hb : s.elem .b k = some b) : t.elem .r k = some (lane a b) := by
  rcases matrixCommand_cases h with ⟨-, rfl⟩ | ⟨-, -, rfl⟩ | ⟨-, -, y, hread, rfl⟩
  · simp [CommandError.code] at ht
  · simp [CommandError.code] at ht
  · obtain ⟨hlen, hval⟩ := (collect_eq_ok_iff ..).1 hread
    have hk' : k < y.length := hk.trans_eq hlen.symm
    have hlane : readLane lane s k = .ok (lane a b) := (readLane_eq_ok_iff ..).2 ⟨a, b, ha, hb, rfl⟩
    have hvalue := hval k hk'
    rw [Nat.zero_add, hlane] at hvalue
    exact (elem_store_of_lt hk').trans (List.getElem?_eq_some_iff.2 ⟨hk', (Except.ok.inj hvalue).symm⟩)

/-- The success case of both commands: R's elements one by one, and nothing else but STATUS and SHAPE_R changed. -/
theorem matrixCommand_writes {op : Nat → Nat → Nat} (hop : ∀ a b, (lane a b).toNat = op a.toNat b.toNat)
    (hfit : FitsIn s.cfg.cap s.shapeA ∧ FitsIn s.cfg.cap s.shapeB) (hconf : Conforms s.shapeA s.shapeB)
    (h : ∀ k < s.inUse .a, (s.elem .a k).isSome = true ∧ (s.elem .b k).isSome = true) :
    ∃ t, matrixCommand lane s = .next t ∧ t = { s with ecode := 0, shapeR := s.shapeA, bufR := t.bufR } ∧
      (∀ k < s.inUse .a, (t.elem .r k).map BitVec.toNat =
        some (op ((s.elem .a k).elim 0 BitVec.toNat) ((s.elem .b k).elim 0 BitVec.toNat))) ∧
      ∀ k, s.inUse .a ≤ k → t.elem .r k = s.elem .r k := by
  obtain ⟨y, hlen, hrun⟩ := matrixCommand_of_written (lane := lane) hfit hconf h
  refine ⟨_, hrun, rfl, fun k hk => ?_, fun k hk => elem_store_of_le (hlen.trans_le hk)⟩
  obtain ⟨hwa, hwb⟩ := h k hk
  obtain ⟨a, ha⟩ := Option.isSome_iff_exists.1 hwa
  obtain ⟨b, hb⟩ := Option.isSome_iff_exists.1 hwb
  rw [elem_of_matrixCommand hrun rfl hk ha hb, ha, hb]
  exact congrArg some (hop a b)

/-- The shapes alone decide the code a matrix command that goes on reports. -/
theorem ecode_of_matrixCommand (h : matrixCommand lane s = .next t) :
    t.ecode = if s.shapeValid .a && s.shapeValid .b then if conform s.shapeA s.shapeB then 0 else 1 else 3 := by
  rcases matrixCommand_cases h with ⟨hv, rfl⟩ | ⟨hv, hconf, rfl⟩ | ⟨hv, hconf, y, -, rfl⟩
  · simp [hv, CommandError.code]
  · simp [hv, hconf, CommandError.code]
  · simp [hv, hconf]

end Sys2Proof.Machine

/-! ## Exchanging the operands (R157) -/

namespace Sys2Proof.Machine

variable {s t : State} {lane : Byte → Byte → Sum}

theorem Conforms.symm {a b : Shape} (h : Conforms a b) : Conforms b a := by
  obtain ⟨hrows, hcols⟩ := h
  exact ⟨hrows.symm, hrows ▸ hcols.imp_right Eq.symm⟩

theorem conform_comm (a b : Shape) : conform a b = conform b a := by
  rw [Bool.eq_iff_iff, conform_iff, conform_iff]
  exact ⟨Conforms.symm, Conforms.symm⟩

/-- Conforming shapes with a row are one shape (R151). -/
theorem eq_of_conform {a b : Shape} (h : conform a b = true) (hrows : a.rows ≠ 0) : a = b := by
  obtain ⟨hr, hc⟩ := (conform_iff a b).1 h
  cases a
  cases b
  exact congrArg₂ Shape.mk hr (hc.resolve_left hrows)

/-- A lane that does not tell its operands apart gives the same values with the buffers exchanged. -/
theorem readLane_swapOperands (hcomm : ∀ a b, lane a b = lane b a) {k : Nat} {v : Sum}
    (h : readLane lane s k = .ok v) : readLane lane s.swapOperands k = .ok v := by
  obtain ⟨a, b, ha, hb, rfl⟩ := (readLane_eq_ok_iff ..).1 h
  exact (readLane_eq_ok_iff ..).2 ⟨b, a, hb, ha, hcomm a b⟩

/-- With a row in A, exchanging the operands before a matrix command or after it is the same. -/
theorem matrixCommand_swapOperands (hcomm : ∀ a b, lane a b = lane b a) (hrows : s.shapeA.rows ≠ 0)
    (h : matrixCommand lane s = .next t) : matrixCommand lane s.swapOperands = .next t.swapOperands := by
  have hvalid : (s.swapOperands.shapeValid .a && s.swapOperands.shapeValid .b) = (s.shapeValid .a && s.shapeValid .b) :=
    Bool.and_comm ..
  have hconform : conform s.swapOperands.shapeA s.swapOperands.shapeB = conform s.shapeA s.shapeB := conform_comm ..
  rcases matrixCommand_cases h with ⟨hv, rfl⟩ | ⟨hv, hconf, rfl⟩ | ⟨hv, hconf, y, hread, rfl⟩
  · rw [matrixCommand, hvalid, hv]
    rfl
  · rw [matrixCommand, hvalid, hv, hconform, hconf]
    rfl
  · have hshape : s.shapeA = s.shapeB := eq_of_conform hconf hrows
    have huse : s.swapOperands.inUse .a = s.inUse .a := congrArg Shape.count hshape.symm
    have hswap : collect (readLane lane s.swapOperands) 0 (s.swapOperands.inUse .a) = .ok y := by
      obtain ⟨hlen, hval⟩ := (collect_eq_ok_iff ..).1 hread
      exact (collect_eq_ok_iff ..).2 ⟨hlen.trans huse.symm, fun k hk => readLane_swapOperands hcomm (hval k hk)⟩
    rw [matrixCommand, hvalid, hv, hconform, hconf, hswap]
    exact congrArg (fun sh => Host.Outcome.next ((s.writeElems .r 0 y).setShape .r sh).succeed.swapOperands) hshape.symm

end Sys2Proof.Machine

/-! ## The statements of 43_matrix.md -/

namespace Sys2Proof.Machine

/-- Settles O30, by the checks in their order and the outcome of reading the lanes. -/
theorem mxorWritesTheExclusiveOrOfEachLane : Obligations.MxorWritesTheExclusiveOrOfEachLane :=
  fun _ _ => ⟨by decide, matrixCommand_of_not_fits, matrixCommand_of_not_conform, matrixCommand_of_unwritten,
    matrixCommand_writes toNat_xorLane⟩

/-- Settles O31, as O30 with the lane of MSUM. -/
theorem msumWritesTheExactSumOfEachLane : Obligations.MsumWritesTheExactSumOfEachLane :=
  fun _ _ => ⟨by decide, matrixCommand_of_not_fits, matrixCommand_of_not_conform, matrixCommand_of_unwritten,
    matrixCommand_writes toNat_sumLane⟩

/-- Settles O32: both lanes are commutative. -/
theorem matrixCommandsIgnoreOperandOrder : Obligations.MatrixCommandsIgnoreOperandOrder := by
  intro s t i hi hrows h
  have hswap : exec i s.swapOperands = .next t.swapOperands := by
    rcases hi with rfl | rfl
    · exact matrixCommand_swapOperands xorLane_comm hrows h
    · exact matrixCommand_swapOperands sumLane_comm hrows h
  exact ⟨_, hswap, rfl, rfl, rfl, rfl⟩

/-- Settles O33: one shape conforms to itself, and each lane cancels. -/
theorem mxorOfAMatrixWithItselfIsZero : Obligations.MxorOfAMatrixWithItselfIsZero := by
  intro s _ hshape hbuf hfit hw
  have helem (k : Nat) : s.elem .b k = s.elem .a k := congrArg (Memory.read · k) hbuf
  have hconf : Conforms s.shapeA s.shapeB := ⟨congrArg Shape.rows hshape.symm, .inr (congrArg Shape.cols hshape.symm)⟩
  obtain ⟨y, -, hrun⟩ := matrixCommand_of_written (lane := xorLane) ⟨hfit, hshape ▸ hfit⟩ hconf
    fun k hk => ⟨hw k hk, helem k ▸ hw k hk⟩
  refine ⟨_, hrun, rfl, rfl, fun k hk => ?_⟩
  obtain ⟨a, ha⟩ := Option.isSome_iff_exists.1 (hw k hk)
  exact (elem_of_matrixCommand hrun rfl hk ha ((helem k).trans ha)).trans (congrArg some (xorLane_self a))

/-- Settles O34: both commands report one code, and a lane of each gives one value exactly when no carry arises. -/
theorem mxorAndMsumAgreeWhereNoBitIsShared : Obligations.MxorAndMsumAgreeWhereNoBitIsShared := by
  intro s t u _ hxor hsum ht
  have hu : u.ecode = 0 := (ecode_of_matrixCommand hsum).trans ((ecode_of_matrixCommand hxor).symm.trans ht)
  refine ⟨hu, fun k hk a b ha hb => ?_⟩
  rw [elem_of_matrixCommand hxor ht hk ha hb, elem_of_matrixCommand hsum hu hk ha hb]
  exact Option.some_inj.trans (xorLane_eq_sumLane_iff a b)

end Sys2Proof.Machine
end

section
/-! PROOFS for 60_exceptions.md. Each check in the order of R173 has one outcome for every command, and after the checks
only an unwritten operand can stop one; what a run of commands leaves in STATUS follows from what one command leaves. -/

/-! ## The checks in their order (R170, R173) -/

namespace Sys2Proof.Machine

variable {s t : State} {i : Instr}

/-- Every shape the command checks is valid for its buffer (10_state.md R28). -/
def CheckedShapesFit (i : Instr) (s : State) : Prop := ∀ x ∈ i.checks, FitsIn (x.capacity s.cfg) (s.shape x)

theorem checks_all_shapeValid_iff : i.checks.all s.shapeValid = true ↔ CheckedShapesFit i s := by
  simp only [List.all_eq_true, shapeValid_iff_fitsIn, CheckedShapesFit]

/-- GMUL checks no shape. -/
theorem checkedShapesFit_gmul (a b : Byte) (s : State) : CheckedShapesFit (.gmul a b) s := List.forall_mem_nil _

theorem not_fitsIn_of_checks_singleton (h : ¬ CheckedShapesFit i s) (x : Buffer) (hx : i.checks = [x]) :
    ¬ FitsIn (x.capacity s.cfg) (s.shape x) := by
  rwa [CheckedShapesFit, hx, List.forall_mem_singleton] at h

/-- The checked shapes of MXOR and MSUM are those of both operands. -/
theorem operandsFit_iff (hi : i = .mxor ∨ i = .msum) :
    CheckedShapesFit i s ↔ FitsIn s.cfg.cap s.shapeA ∧ FitsIn s.cfg.cap s.shapeB := by
  rcases hi with rfl | rfl <;> simp [CheckedShapesFit, Instr.checks, Buffer.capacity]

/-- MXOR and MSUM are the matrix command of their lanes. -/
theorem exists_exec_eq_matrixCommand (hi : i = .mxor ∨ i = .msum) : ∃ lane, exec i = matrixCommand lane := by
  rcases hi with rfl | rfl
  · exact ⟨xorLane, rfl⟩
  · exact ⟨sumLane, rfl⟩

theorem exec_of_not_fits (h : ¬ CheckedShapesFit i s) : exec i s = .next (s.failedWith 3) := by
  cases i with
  | gmul a b => exact absurd (checkedShapesFit_gmul a b s) h
  | b2bits => exact bitsCommand_of_not_fits (not_fitsIn_of_checks_singleton h .a rfl)
  | bits2b => exact exec_bits2b_of_not_fits (not_fitsIn_of_checks_singleton h .t rfl)
  | mbits => exact (exec_mbits s).trans (bitsCommand_of_not_fits (not_fitsIn_of_checks_singleton h .a rfl))
  | flat x => exact exec_flat_of_not_fits (not_fitsIn_of_checks_singleton h x rfl)
  | mxor => exact matrixCommand_of_not_fits (mt (operandsFit_iff (.inl rfl)).2 h)
  | msum => exact matrixCommand_of_not_fits (mt (operandsFit_iff (.inr rfl)).2 h)

theorem exec_of_not_conform (hfit : CheckedShapesFit i s) (hi : i = .mxor ∨ i = .msum)
    (h : ¬ Conforms s.shapeA s.shapeB) : exec i s = .next (s.failedWith 1) := by
  obtain ⟨lane, hlane⟩ := exists_exec_eq_matrixCommand hi
  rw [hlane]
  exact matrixCommand_of_not_conform ((operandsFit_iff hi).1 hfit) h

theorem exec_of_not_aligned (hfit : CheckedShapesFit i s) (hi : i = .bits2b) (h : s.inUse .t % 8 ≠ 0) :
    exec i s = .next (s.failedWith 2) := by
  subst hi
  exact exec_bits2b_of_not_aligned (hfit .t (by decide)) h

/-- The command's checks in the order of R173: the first that fails, or all of them passed. -/
theorem shapeError_cases (i : Instr) (s : State) :
    (¬ CheckedShapesFit i s ∧ shapeError i s = some .shapeInvalid) ∨
    (CheckedShapesFit i s ∧ (i = .mxor ∨ i = .msum) ∧ ¬ Conforms s.shapeA s.shapeB ∧
      shapeError i s = some .shapeMismatch) ∨
    (CheckedShapesFit i s ∧ i = .bits2b ∧ s.inUse .t % 8 ≠ 0 ∧ shapeError i s = some .alignment) ∨
    (CheckedShapesFit i s ∧ (i = .mxor ∨ i = .msum → Conforms s.shapeA s.shapeB) ∧
      (i = .bits2b → s.inUse .t % 8 = 0) ∧ shapeError i s = none) := by
  by_cases hfit : CheckedShapesFit i s
  case neg => exact .inl ⟨hfit, if_neg (mt checks_all_shapeValid_iff.1 hfit)⟩
  have hall := checks_all_shapeValid_iff.2 hfit
  cases i
  case mxor | msum =>
    by_cases hconf : Conforms s.shapeA s.shapeB
    · exact .inr (.inr (.inr ⟨hfit, fun _ => hconf, by simp, (if_pos hall).trans (if_pos ((conform_iff ..).2 hconf))⟩))
    · exact .inr (.inl ⟨hfit, by simp, hconf, (if_pos hall).trans (if_neg (mt (conform_iff ..).1 hconf))⟩)
  case bits2b =>
    by_cases h8 : s.inUse .t % 8 = 0
    · exact .inr (.inr (.inr ⟨hfit, by simp, fun _ => h8, (if_pos hall).trans (if_pos h8)⟩))
    · exact .inr (.inr (.inl ⟨hfit, rfl, h8, (if_pos hall).trans (if_neg h8)⟩))
  all_goals exact .inr (.inr (.inr ⟨hfit, by simp, by simp, if_pos hall⟩))

end Sys2Proof.Machine

/-! ## When a command goes on (10_state.md R32) -/

namespace Sys2Proof.Machine

variable {s : State} {i : Instr} {sh : Shape} {lane : Byte → Byte → Sum}

theorem onOperands_goesOn_iff {α : Type} (e : Except Fault α) (result : α → State) :
    (∃ t, onOperands e result = .next t) ↔ ∃ x, e = .ok x := by
  cases e <;> simp

theorem readElems_inUse_isOk_iff (x : Buffer) :
    (∃ vs, readElems s x 0 (s.inUse x) = .ok vs) ↔ s.operandsWritten x := by
  simp only [readElems_isOk_iff, Nat.zero_add]

theorem bitsCommand_goesOn_iff (hfit : FitsIn s.cfg.cap s.shapeA) :
    (∃ t, bitsCommand sh s = .next t) ↔ s.operandsWritten .a := by
  rw [bitsCommand, if_pos ((shapeValid_iff_fitsIn .a).2 hfit), onOperands_goesOn_iff, readElems_inUse_isOk_iff]

theorem exec_bits2b_goesOn_iff (hfit : FitsIn (8 * s.cfg.cap) s.shapeT) (h8 : s.inUse .t % 8 = 0) :
    (∃ t, exec .bits2b s = .next t) ↔ s.operandsWritten .t := by
  rw [exec_bits2b_of_aligned hfit h8, onOperands_goesOn_iff, readElems_inUse_isOk_iff]

/-- Conforming operands have equally many elements in use, so every lane can be read exactly when both are written. -/
theorem matrixCommand_goesOn_iff (hfit : FitsIn s.cfg.cap s.shapeA ∧ FitsIn s.cfg.cap s.shapeB)
    (hconf : Conforms s.shapeA s.shapeB) :
    (∃ t, matrixCommand lane s = .next t) ↔ s.operandsWritten .a ∧ s.operandsWritten .b := by
  have huse : s.inUse .a = s.inUse .b := count_eq_of_conform ((conform_iff ..).2 hconf)
  rw [matrixCommand_of_conform hfit hconf, onOperands_goesOn_iff, collect_readLane_isOk_iff]
  simp only [State.operandsWritten, ← huse, forall_and]

/-- A command that passes its checks goes on exactly when its operands are written. -/
theorem exec_goesOn_iff_of_passes (hfit : CheckedShapesFit i s)
    (hconf : i = .mxor ∨ i = .msum → Conforms s.shapeA s.shapeB) (h8 : i = .bits2b → s.inUse .t % 8 = 0) :
    (∃ t, exec i s = .next t) ↔ ∀ x ∈ i.reads, s.operandsWritten x := by
  cases i with
  | gmul a b => exact iff_of_true ⟨_, rfl⟩ (by simp [Instr.reads])
  | b2bits =>
    rw [exec_b2bits, bitsCommand_goesOn_iff (hfit .a (by decide)), Instr.reads, List.forall_mem_singleton]
  | bits2b => rw [exec_bits2b_goesOn_iff (hfit .t (by decide)) (h8 rfl), Instr.reads, List.forall_mem_singleton]
  | mbits =>
    rw [exec_mbits, bitsCommand_goesOn_iff (hfit .a (by decide)), Instr.reads, List.forall_mem_singleton]
  | flat x => exact iff_of_true ⟨_, exec_flat_of_fits (hfit x (List.mem_singleton_self x))⟩ (by simp [Instr.reads])
  | mxor =>
    rw [Instr.reads, List.forall_mem_cons, List.forall_mem_singleton]
    exact matrixCommand_goesOn_iff ((operandsFit_iff (.inl rfl)).1 hfit) (hconf (.inl rfl))
  | msum =>
    rw [Instr.reads, List.forall_mem_cons, List.forall_mem_singleton]
    exact matrixCommand_goesOn_iff ((operandsFit_iff (.inr rfl)).1 hfit) (hconf (.inr rfl))

/-- A failed check is a next state, so only a command that passes its checks can stop. -/
theorem exec_goesOn_iff (i : Instr) (s : State) :
    (∃ t, exec i s = .next t) ↔ (shapeError i s = none → ∀ x ∈ i.reads, s.operandsWritten x) := by
  rcases shapeError_cases i s with
    ⟨hfit, herr⟩ | ⟨hfit, hi, hconf, herr⟩ | ⟨hfit, hi, h8, herr⟩ | ⟨hfit, hconf, h8, herr⟩
  · exact iff_of_true ⟨_, exec_of_not_fits hfit⟩ (by simp [herr])
  · exact iff_of_true ⟨_, exec_of_not_conform hfit hi hconf⟩ (by simp [herr])
  · exact iff_of_true ⟨_, exec_of_not_aligned hfit hi h8⟩ (by simp [herr])
  · exact (exec_goesOn_iff_of_passes hfit hconf h8).trans (by simp [herr])

theorem exec_ne_refused (i : Instr) (s : State) (r : Refusal) : exec i s ≠ .refused r := by
  obtain ⟨e, he, -⟩ := exec_sameEffect (i := i) (s := s) ⟨rfl, fun _ _ => rfl, fun _ _ => rfl⟩
  rw [he]
  exact onOperands_ne_refused e _ r

end Sys2Proof.Machine

/-! ## When a step goes on (R178) -/

namespace Sys2Proof.Machine

variable {s : State} {e : HostEvent} {es : List HostEvent}

theorem execute_goesOn_iff (w : Word) (s : State) : (∃ t, execute w s = .next t) ↔
    ∀ i, decode w = .ok i → shapeError i s = none → ∀ x ∈ i.reads, s.operandsWritten x := by
  cases hw : decode w with
  | error e => exact iff_of_true ⟨_, execute_of_reject hw s⟩ (by simp)
  | ok i => simp only [execute_of_decode hw, exec_goesOn_iff, Except.ok.injEq, forall_eq']

theorem writeTarget_goesOn_iff (s : State) (v : Word) (loc : Target) : (∃ t, writeTarget s v loc = .next t) ↔
    (loc = .cmd → ∀ i, decode v = .ok i → shapeError i s = none → ∀ x ∈ i.reads, s.operandsWritten x) := by
  cases loc with
  | cmd => simpa [writeTarget] using execute_goesOn_iff v s
  | _ => exact iff_of_true ⟨_, rfl⟩ (by simp)

theorem readTarget_isOk_iff (s : State) (loc : Target) :
    (∃ v, readTarget s loc = .ok v) ↔ loc.readable s = true := by
  cases loc with
  | elem x i => cases h : s.elem x i <;> simp [readTarget, readElem, Target.readable, h]
  | _ => exact iff_of_true ⟨_, rfl⟩ rfl

theorem perform_read_goesOn_iff (s : State) (addr n : Nat) : (∃ t, perform (.read addr n) s = .next t) ↔
    ∃ loc, admitted s.cfg addr n = some loc ∧ loc.readable s = true := by
  simp only [perform_read_eq_next_iff, memRead_eq_ok_iff, ← readTarget_isOk_iff]
  constructor
  · rintro ⟨t, v, ⟨loc, hadm, hread⟩, -⟩
    exact ⟨loc, hadm, v, hread⟩
  · rintro ⟨loc, hadm, v, hread⟩
    exact ⟨_, v, ⟨loc, hadm, hread⟩, rfl⟩

theorem perform_write_goesOn_iff (s : State) (addr n : Nat) (v : Word) : (∃ t, perform (.write addr n v) s = .next t) ↔
    ∃ loc, admitted s.cfg addr n = some loc ∧
      (loc = .cmd → ∀ i, decode v = .ok i → shapeError i s = none → ∀ x ∈ i.reads, s.operandsWritten x) := by
  simp only [perform_write, memWrite_eq_next_iff, ← writeTarget_goesOn_iff]
  rw [exists_comm]
  simp only [exists_and_left]

/-- The accesses behind the first do not decide whether it goes on. -/
theorem stepSafe_iff_of_cons (hp : s.pending = e :: es) : StepSafe s ↔ ∃ t, perform e s = .next t := by
  rw [StepSafe, step_of_cons hp, perform_pending]
  cases perform e s <;> simp [mapNext]

theorem execute_ne_refused (w : Word) (s : State) (r : Refusal) : execute w s ≠ .refused r := by
  cases hw : decode w with
  | error d => simp [execute_of_reject hw]
  | ok i => simpa only [execute_of_decode hw] using exec_ne_refused i s r

theorem memWrite_ne_refused (s : State) (addr n : Nat) (v : Word) (r : Refusal) : memWrite s addr n v ≠ .refused r := by
  rw [memWrite]
  rcases admitted s.cfg addr n with _ | loc
  · simp
  · cases loc with
    | cmd => exact execute_ne_refused v s r
    | _ => simp [writeTarget]

theorem perform_ne_refused (e : HostEvent) (s : State) (r : Refusal) : perform e s ≠ .refused r := by
  cases e with
  | read addr n => cases h : memRead s addr n <;> simp [perform, h]
  | write addr n v => exact memWrite_ne_refused s addr n v r
  | reset => simp

theorem step_ne_refused (s : State) (r : Refusal) : step s ≠ .refused r := by
  cases hp : s.pending with
  | nil => simp [step_of_nil hp]
  | cons e es =>
    rw [step_of_cons hp]
    exact perform_ne_refused e _ r

end Sys2Proof.Machine

/-! ## What a command leaves in STATUS (R170, R172, 10_state.md R24) -/

namespace Sys2Proof.Machine

variable {s t : State} {i : Instr} {w : Word}

theorem State.fail_err_eq (s : State) (e : CommandError) :
    (s.fail e).err = (s.err || decide ((s.fail e).ecode ≠ 0)) := by
  cases e <;> simp [CommandError.code]

/-- ERR is set by a failure and kept by a success. -/
theorem CommandResult.err_eq (h : CommandResult i s t) : t.err = (s.err || decide (t.ecode ≠ 0)) := by
  cases h with
  | failed e => exact s.fail_err_eq e
  | _ => simp

/-- ECODE is 0 or the code of the check that failed. -/
theorem CommandResult.ecode_cases (h : CommandResult i s t) :
    t.ecode = 0 ∨ ∃ e, shapeError i s = some e ∧ t.ecode = e.code := by
  cases h with
  | failed e he => exact .inr ⟨e, he, rfl⟩
  | _ => simp

theorem execute_err (h : execute w s = .next t) : t.err = (s.err || decide (t.ecode ≠ 0)) := by
  rcases execute_result h with ⟨-, rfl⟩ | ⟨i, -, hi⟩
  · exact s.fail_err_eq _
  · exact hi.err_eq

end Sys2Proof.Machine

/-! ## Runs of commands (R174) -/

namespace Sys2Proof.Machine

variable {s t : State} {w : Word} {ws : List Word}

theorem perform_commandWrite (hc : s.cfg.wellFormed = true) (w : Word) :
    perform (commandWrite s.cfg w) s = execute w s := by
  simp [commandWrite, Target.offset, memWrite, admitted_cmd hc, writeTarget]

/-- An event is a step with that event pending, so it leaves the configuration alone (10_state.md R26, R35). -/
theorem cfg_of_perform {e : HostEvent} (h : perform e s = .next t) : t.cfg = s.cfg :=
  configurationNeverChanges { s with pending := e :: s.pending } t ((step_of_cons rfl).trans h)

theorem cfg_of_performAll {es : List HostEvent} (h : performAll es s = .next t) : t.cfg = s.cfg := by
  induction es generalizing s with
  | nil => cases h; rfl
  | cons e es ih =>
    obtain ⟨u, hu, ht⟩ := (performAll_cons_eq_next_iff ..).1 h
    exact (ih ht).trans (cfg_of_perform hu)

/-- The host issues the words `ws` one after another. -/
def issueAll (ws : List Word) (s : State) : Host.Outcome State Fault Refusal :=
  performAll (ws.map (commandWrite s.cfg)) s

theorem issueAll_nil (s : State) : issueAll [] s = .next s := rfl

theorem issueAll_cons (hc : s.cfg.wellFormed = true) {u : State} (hu : execute w s = .next u) (ws : List Word) :
    issueAll (w :: ws) s = issueAll ws u := by
  have hrun : perform (commandWrite s.cfg w) s = .next u := (perform_commandWrite hc w).trans hu
  simp [issueAll, performAll, hrun, cfg_of_perform hrun]

theorem exists_execute_of_issueAll_cons (hc : s.cfg.wellFormed = true) (h : issueAll (w :: ws) s = .next t) :
    ∃ u, execute w s = .next u ∧ u.cfg.wellFormed = true ∧ issueAll ws u = .next t := by
  obtain ⟨u, hu, -⟩ := (performAll_cons_eq_next_iff ..).1 h
  have hcfg := cfg_of_perform hu
  rw [perform_commandWrite hc] at hu
  exact ⟨u, hu, hcfg ▸ hc, issueAll_cons hc hu ws ▸ h⟩

/-- The last word of a run is executed where the words before it end. -/
theorem exists_execute_of_issueAll_append (hc : s.cfg.wellFormed = true) (h : issueAll (ws ++ [w]) s = .next t) :
    ∃ u, issueAll ws s = .next u ∧ execute w u = .next t := by
  rw [issueAll, List.map_append, performAll_append_eq_next_iff] at h
  obtain ⟨u, hu, hlast⟩ := h
  have hcfg := cfg_of_performAll hu
  obtain ⟨v, hv, -, hvt⟩ := exists_execute_of_issueAll_cons (ws := []) (hcfg ▸ hc) (hcfg ▸ hlast)
  obtain rfl : v = t := Host.Outcome.next.inj hvt
  exact ⟨u, hu, hv⟩

/-- ERR after a run: set before it, or by a word of it. -/
theorem err_of_issueAll (hc : s.cfg.wellFormed = true) (h : issueAll ws s = .next t) :
    t.err = true ↔ s.err = true ∨ ∃ k < ws.length, ∃ u, issueAll (ws.take (k + 1)) s = .next u ∧ u.ecode ≠ 0 := by
  induction ws generalizing s with
  | nil => cases h; simp
  | cons w ws ih =>
    obtain ⟨u, hu, hcu, ht⟩ := exists_execute_of_issueAll_cons hc h
    have hfirst : u.err = true ↔ s.err = true ∨ u.ecode ≠ 0 := by simp [execute_err hu]
    simp only [ih hcu ht, hfirst, List.length_cons, Nat.exists_lt_succ_left, List.take_succ_cons, issueAll_cons hc hu,
      List.take_zero, issueAll_nil, Host.Outcome.next.injEq, exists_eq_left', or_assoc]

end Sys2Proof.Machine

/-! ## The statements of 60_exceptions.md -/

namespace Sys2Proof.Machine

/-- Settles O16: a step goes on when its first access does, and of the admitted accesses only those that read elements can
stop. -/
theorem stepStopsExactlyWhereTheSpecFaults : Obligations.StepStopsExactlyWhereTheSpecFaults := by
  refine fun s _ => ⟨step_ne_refused s, ?_⟩
  cases hp : s.pending with
  | nil => exact iff_of_true ⟨s, step_of_nil hp⟩ trivial
  | cons e es =>
    rw [stepSafe_iff_of_cons hp]
    cases e with
    | read addr n => exact perform_read_goesOn_iff s addr n
    | write addr n v => exact perform_write_goesOn_iff s addr n v
    | reset => exact iff_of_true ⟨_, perform_reset s⟩ trivial

/-- Settles O35: each failed check is a next state with its own code, so only a command that passed all can fault. -/
theorem errorsAreReportedInOrder : Obligations.ErrorsAreReportedInOrder := by
  refine fun s w => ⟨fun e he => execute_of_reject he s, fun i hi => ?_⟩
  rw [execute_of_decode hi]
  refine ⟨exec_of_not_fits, exec_of_not_conform, exec_of_not_aligned, fun f hf => ?_⟩
  have hne : ∀ t, exec i s ≠ .next t := by simp [hf]
  have hvalid : CheckedShapesFit i s := by_contra fun h => hne _ (exec_of_not_fits h)
  exact ⟨hvalid, fun hi => by_contra fun h => hne _ (exec_of_not_conform hvalid hi h),
    fun hi => by_contra fun h => hne _ (exec_of_not_aligned hvalid hi h)⟩

/-- Settles O36: a nonzero ECODE is the code of the check that failed, and each command makes only its own checks. -/
theorem eachCommandRecordsOnlyItsCodes : Obligations.EachCommandRecordsOnlyItsCodes := by
  intro s t i h
  refine ⟨(exec_result h).err_eq, ?_⟩
  rcases (exec_result h).ecode_cases with h0 | ⟨e, he, hcode⟩
  · cases i <;> simp [h0]
  · rcases shapeError_cases i s with ⟨hfit, herr⟩ | ⟨-, hi, -, herr⟩ | ⟨-, rfl, -, herr⟩ | ⟨-, -, -, herr⟩
    · obtain rfl : CommandError.shapeInvalid = e := Option.some.inj (herr.symm.trans he)
      cases i with
      | gmul a b => exact absurd (checkedShapesFit_gmul a b s) hfit
      | _ => simp [hcode, CommandError.code]
    · obtain rfl : CommandError.shapeMismatch = e := Option.some.inj (herr.symm.trans he)
      rcases hi with rfl | rfl <;> simp [hcode, CommandError.code]
    · obtain rfl : CommandError.alignment = e := Option.some.inj (herr.symm.trans he)
      simp [hcode, CommandError.code]
    · simp [herr] at he

/-- Settles O37: a nonzero ECODE is a failure's, which writes STATUS alone. -/
theorem failedCommandChangesOnlyStatus : Obligations.FailedCommandChangesOnlyStatus := by
  intro s t w h ht
  obtain ⟨e, rfl⟩ := execute_eq_fail h ht
  rfl

/-- Settles O39: ERR by induction on the words, and ECODE by the last of them. -/
theorem errTellsWhetherAnyCommandFailed : Obligations.ErrTellsWhetherAnyCommandFailed := by
  refine fun s t ws hc herr h => ⟨?_, fun w hw => ?_⟩
  · exact (err_of_issueAll hc h).trans (by simp [herr, issueAll])
  · rw [← List.dropLast_append_getLast? w hw] at h
    exact exists_execute_of_issueAll_append hc h

end Sys2Proof.Machine
end

section
/-! PROOFS for 70_reset_and_hazards.md. A buffer holds a sequence when its shape is valid and its elements in use are that
sequence. A matrix loaded from any state is held, and so is the empty sequence after reset; each command has one outcome on
operands that are held, and what it stores is what the host's next reads return. -/

/-! ## Operands that are held (R193, R194) -/

namespace Sys2Proof.Machine

variable {s : State} {x : Buffer} {vs : List (BitVec x.width)}

/-- Buffer X is ready for a command: its shape is valid, and its elements in use are written and are `vs`. -/
structure State.Holds (s : State) (x : Buffer) (vs : List (BitVec x.width)) : Prop where
  fits : FitsIn (x.capacity s.cfg) (s.shape x)
  read : readElems s x 0 (s.inUse x) = .ok vs

theorem State.Holds.length_eq (h : s.Holds x vs) : vs.length = s.inUse x := ((readElems_eq_ok_iff ..).1 h.read).1

theorem State.Holds.length_le (h : s.Holds x vs) : vs.length ≤ x.capacity s.cfg :=
  h.length_eq.trans_le (inUse_le_of_shapeValid ((shapeValid_iff_fitsIn x).2 h.fits))

theorem State.Holds.elem_eq (h : s.Holds x vs) {k : Nat} (hk : k < vs.length) : s.elem x k = some vs[k] := by
  have hval := ((readElems_eq_ok_iff ..).1 h.read).2 k hk
  rwa [Nat.zero_add] at hval

/-- Whether a buffer is ready depends on that buffer's shape and elements and on CAP only. -/
theorem State.Holds.congr {t : State} (h : s.Holds x vs) (hcfg : t.cfg = s.cfg) (hshape : t.shape x = s.shape x)
    (helem : t.elem x = s.elem x) : t.Holds x vs where
  fits := by rw [hcfg, hshape]; exact h.fits
  read := by rw [readElems_congr helem, inUse_congr hshape]; exact h.read

/-- Right after reset every buffer has a valid shape with no element in use. -/
theorem holds_nil_resetWith (c : Config) (x : Buffer) : (State.resetWith c).Holds x [] where
  fits := by cases x <;> exact ⟨Nat.zero_le _, Nat.zero_le _, Nat.zero_le _⟩
  read := by cases x <;> rfl

/-- B2BITS and MBITS, each with its shape of T, store the bits of the bytes A holds. -/
theorem bitsCommand_of_holds {bytes : List Byte} (h : s.Holds .a bytes) (sh : Shape) :
    bitsCommand sh s = .next (storeBits s (bytesToBits bytes) sh) :=
  (if_pos ((shapeValid_iff_fitsIn .a).2 h.fits)).trans (congrArg (onOperands · _) h.read)

/-- BITS2B stores the bytes of the bits T holds, whole groups of 8. -/
theorem exec_bits2b_of_holds {bits : List Bit} (h : s.Holds .t bits) (h8 : bits.length % 8 = 0) :
    exec .bits2b s = .next (storeByteRow s (packGroups bits) (bits.length / 8)) := by
  have huse : bits.length = s.inUse .t := h.length_eq
  rw [huse] at h8 ⊢
  exact exec_bits2b_of_readElems h.fits h8 h.read

/-- MXOR and MSUM store the lanes of the bytes A and B hold, in matrices of one shape. -/
theorem matrixCommand_of_holds {a b : List Byte} (ha : s.Holds .a a) (hb : s.Holds .b b) (hshape : s.shapeA = s.shapeB)
    (lane : Byte → Byte → Sum) : matrixCommand lane s = .next (storeLanes s (List.zipWith lane a b)) := by
  have hread : collect (readLane lane s) 0 (s.inUse .a) = .ok (List.zipWith lane a b) := by
    have hlen : a.length = s.inUse .a := ha.length_eq
    have hlenb : b.length = s.inUse .b := hb.length_eq
    have huse : s.inUse .b = s.inUse .a := congrArg Shape.count hshape.symm
    refine (collect_eq_ok_iff ..).2 ⟨by rw [List.length_zipWith, hlen, hlenb, huse, Nat.min_self], fun k hk => ?_⟩
    obtain ⟨hka, hkb⟩ : k < a.length ∧ k < b.length := by rwa [List.length_zipWith, Nat.lt_min] at hk
    rw [Nat.zero_add, List.getElem_zipWith]
    exact (readLane_eq_ok_iff ..).2 ⟨_, _, ha.elem_eq hka, hb.elem_eq hkb, rfl⟩
  rw [matrixCommand_of_conform ⟨ha.fits, hb.fits⟩ ⟨congrArg Shape.rows hshape, .inr (congrArg Shape.cols hshape)⟩, hread,
    onOperands_ok]

end Sys2Proof.Machine

/-! ## Loading a matrix (R194) -/

namespace Sys2Proof.Machine

variable {s : State}

/-- The values of a matrix literal in row-major order, each cut to `w` bits. -/
def matrixValues (w : Nat) (rows : List (List Word)) : List (BitVec w) := rows.flatten.map fun v => v.setWidth w

/-- The state after LOADM of rows of `c` values. -/
def State.loadMatrix (s : State) (x : Buffer) (rows : List (List Word)) (c : Nat) : State :=
  (s.setShape x (Shape.ofCounts rows.length c)).writeElems x 0 (matrixValues x.width rows)

variable {x : Buffer} {rows : List (List Word)} {c : Nat}

theorem length_matrixValues (hrows : ∀ row ∈ rows, row.length = c) (w : Nat) :
    (matrixValues w rows).length = rows.length * c :=
  (List.length_map ..).trans (length_flatten_of_length hrows)

@[simp] theorem State.loadMatrix_cfg : (s.loadMatrix x rows c).cfg = s.cfg := by simp [State.loadMatrix]
@[simp] theorem State.loadMatrix_err : (s.loadMatrix x rows c).err = s.err := by simp [State.loadMatrix]
@[simp] theorem State.loadMatrix_observed : (s.loadMatrix x rows c).observed = s.observed := by simp [State.loadMatrix]

theorem State.shape_loadMatrix (y : Buffer) :
    (s.loadMatrix x rows c).shape y = if y = x then Shape.ofCounts rows.length c else s.shape y := by
  simp [State.loadMatrix]

theorem State.elem_loadMatrix_of_ne {y : Buffer} (h : y ≠ x) : (s.loadMatrix x rows c).elem y = s.elem y :=
  funext fun i => by rw [State.loadMatrix, State.elem_writeElems_of_ne _ h, State.elem_setShape]

theorem State.elem_loadMatrix {k : Nat} (hk : k < (matrixValues x.width rows).length) :
    (s.loadMatrix x rows c).elem x k = some (matrixValues x.width rows)[k] := by
  rw [State.loadMatrix, State.elem_writeElems, if_pos (by omega), Nat.sub_zero, List.getElem?_eq_getElem hk]

/-- A buffer holds the matrix loaded into it, whatever it held before. -/
theorem holds_loadMatrix (hc : s.cfg.wellFormed = true) (hrows : ∀ row ∈ rows, row.length = c)
    (hfit : FitsCounts (x.capacity s.cfg) rows.length c) : (s.loadMatrix x rows c).Holds x (matrixValues x.width rows) := by
  obtain ⟨hr, hcols, hcount⟩ := hfit
  obtain ⟨-, hlt⟩ := capacity_bounds hc x
  have hshape : (s.loadMatrix x rows c).shape x = Shape.ofCounts rows.length c :=
    (State.shape_loadMatrix x).trans (if_pos rfl)
  have huse : (s.loadMatrix x rows c).inUse x = (matrixValues x.width rows).length := by
    rw [State.inUse, hshape, Shape.ofCounts_count (by omega) (by omega), length_matrixValues hrows]
  constructor
  · rw [hshape, State.loadMatrix_cfg]
    exact (Shape.valid_iff ..).1 (Shape.valid_ofCounts hlt hr hcols hcount)
  · rw [huse]
    exact (readElems_eq_ok_iff ..).2 ⟨rfl, fun k hk => by rw [Nat.zero_add, State.elem_loadMatrix hk]⟩

end Sys2Proof.Machine

/-! ## Running a host program line by line (R88, R89) -/

namespace Sys2Proof.Machine

variable {s t u : State}

/-- The run of a host program's accesses. -/
def runProgram (lines : List HostLine) (s : State) : Host.Outcome State Fault Refusal :=
  performAll (expandProgram s.cfg lines) s

/-- A program runs its first line, and the other lines from where that ends. -/
theorem runProgram_cons {line : HostLine} {lines : List HostLine} (hline : performAll (line.expand s.cfg) s = .next t)
    (hrest : runProgram lines t = .next u) : runProgram (line :: lines) s = .next u :=
  (performAll_append_eq_next_iff ..).2 ⟨t, hline, cfg_of_performAll hline ▸ hrest⟩

theorem performAll_singleton {e : HostEvent} (h : perform e s = .next t) : performAll [e] s = .next t := by
  simp only [performAll, h]

/-- A command mnemonic runs its command. -/
theorem performAll_command (hc : s.cfg.wellFormed = true) {i : Instr} (h : exec i s = .next t) :
    performAll ((HostLine.command i).expand s.cfg) s = .next t :=
  performAll_singleton (by rw [perform_commandWrite hc, execute_of_decode (encodedCommandDecodesToItself i), h])

theorem perform_readLoc {loc : Target} {v : Word} (hadm : admitted s.cfg (s.cfg.base + loc.offset) 4 = some loc)
    (hread : readTarget s loc = .ok v) : perform (readLoc s.cfg loc) s = .next (s.observe v) := by
  simp only [readLoc, perform, memRead, hadm, hread]

theorem performAll_rd_status (hc : s.cfg.wellFormed = true) :
    performAll ((HostLine.rd .status).expand s.cfg) s = .next (s.observe s.statusWord) :=
  performAll_singleton (perform_readLoc (admitted_base_add hc rfl) rfl)

/-- Records the values of several reads, in order. -/
def State.observeAll (s : State) (vs : List Word) : State := { s with observed := s.observed ++ vs }

@[simp] theorem State.observeAll_observed (vs : List Word) : (s.observeAll vs).observed = s.observed ++ vs := rfl

@[simp] theorem State.observeAll_nil : s.observeAll [] = s := by simp [State.observeAll]

theorem State.observeAll_cons (v : Word) (vs : List Word) : s.observeAll (v :: vs) = (s.observe v).observeAll vs := by
  simp [State.observeAll, State.observe]

/-- Reads of written elements return their values in order. -/
theorem performAll_readElemsFrom (hc : s.cfg.wellFormed = true) {x : Buffer} {i : Nat} {vs : List (BitVec x.width)}
    (hi : i + vs.length ≤ x.capacity s.cfg) (hvs : ∀ k (hk : k < vs.length), s.elem x (i + k) = some vs[k]) :
    performAll (readElemsFrom s.cfg x i vs.length) s = .next (s.observeAll (vs.map fun v => v.setWidth 32)) := by
  induction vs generalizing s i with
  | nil => exact congrArg Host.Outcome.next State.observeAll_nil.symm
  | cons v vs ih =>
    rw [List.length_cons] at hi
    have hv : readElem s x i = .ok v := (readElem_eq_ok_iff ..).2 (hvs 0 (Nat.zero_lt_succ _))
    have hadm : admitted s.cfg (s.cfg.base + (Target.elem x i).offset) 4 = some (.elem x i) := by
      rw [Target.offset, ← Nat.add_assoc]
      exact admitted_elem hc (by omega)
    have hfirst : perform (readLoc s.cfg (.elem x i)) s = .next (s.observe (v.setWidth 32)) :=
      perform_readLoc hadm (by simp only [readTarget, hv])
    have hrest : performAll (readElemsFrom s.cfg x (i + 1) vs.length) (s.observe (v.setWidth 32)) = _ :=
      ih (s := s.observe (v.setWidth 32)) hc (by rw [State.observe_cfg]; omega) fun k hk => by
        rw [State.elem_observe, Nat.add_assoc, Nat.add_comm 1]
        exact hvs (k + 1) (Nat.succ_lt_succ hk)
    simp only [List.length_cons, readElemsFrom, performAll, hfirst, hrest, List.map_cons, State.observeAll_cons]

end Sys2Proof.Machine

/-! ## The values the host reads (R194, R196) -/

namespace Sys2Proof.Machine

theorem toNat_and_0xFF (v : Word) : (v &&& 0xFF).toNat = v.toNat % 2 ^ 8 :=
  (BitVec.toNat_and ..).trans (Nat.and_two_pow_sub_one_eq_mod v.toNat 8)

/-- The lane of MXOR on two loaded values, as the host reads it. -/
theorem setWidth_xorLane (a b : Word) : (xorLane (a.setWidth 8) (b.setWidth 8)).setWidth 32 = (a ^^^ b) &&& 0xFF := by
  apply BitVec.eq_of_toNat_eq
  rw [BitVec.toNat_setWidth_of_le (by decide), toNat_xorLane, toNat_and_0xFF, BitVec.toNat_xor, Nat.xor_mod_two_pow]
  rfl

/-- The lane of MSUM on two loaded values, as the host reads it. -/
theorem setWidth_sumLane (a b : Word) :
    (sumLane (a.setWidth 8) (b.setWidth 8)).setWidth 32 = (a &&& 0xFF) + (b &&& 0xFF) := by
  apply BitVec.eq_of_toNat_eq
  rw [BitVec.toNat_setWidth_of_le (by decide), toNat_sumLane, BitVec.toNat_add, toNat_and_0xFF, toNat_and_0xFF,
    BitVec.toNat_setWidth, BitVec.toNat_setWidth]
  omega

theorem map_zipWith_matrixValues {lane : Byte → Byte → Sum} {op : Word → Word → Word}
    (h : ∀ a b : Word, (lane (a.setWidth 8) (b.setWidth 8)).setWidth 32 = op a b) (rowsA rowsB : List (List Word)) :
    (List.zipWith lane (matrixValues 8 rowsA) (matrixValues 8 rowsB)).map (fun v => v.setWidth 32) =
      List.zipWith op rowsA.flatten rowsB.flatten := by
  simp only [matrixValues, List.zipWith_map, List.map_zipWith, h]

theorem bytesToBits_eq_flatMap (x : List Byte) : bytesToBits x = x.flatMap bits8 := by
  induction x with
  | nil => rfl
  | cons v x ih => rw [bytesToBits, ih, List.flatMap_cons]

/-- The bits of a loaded value's low byte, as the host reads them. -/
theorem map_bits8_setWidth (v : Word) : (bits8 (v.setWidth 8)).map (fun b => b.setWidth 32) =
    [7, 6, 5, 4, 3, 2, 1, 0].map fun k => BitVec.ofNat 32 (v.toNat / 2 ^ k % 2) := by
  have hbit : ∀ k ∈ [7, 6, 5, 4, 3, 2, 1, 0],
      ((v.setWidth 8).extractLsb' k 1).setWidth 32 = BitVec.ofNat 32 (v.toNat / 2 ^ k % 2) := fun k hk => by
    have hk : k < 8 := by revert k; decide
    apply BitVec.eq_of_toNat_eq
    interval_cases k <;> simp [Nat.shiftRight_eq_div_pow] <;> omega
  exact List.map_congr_left hbit

theorem map_bytesToBits_matrixValues (rows : List (List Word)) :
    (bytesToBits (matrixValues 8 rows)).map (fun b => b.setWidth 32) =
      rows.flatten.flatMap fun v => [7, 6, 5, 4, 3, 2, 1, 0].map fun k => BitVec.ofNat 32 (v.toNat / 2 ^ k % 2) := by
  rw [bytesToBits_eq_flatMap, List.map_flatMap, matrixValues, List.flatMap_map]
  exact congrArg (rows.flatten.flatMap ·) (funext map_bits8_setWidth)

/-- The bytes of a bit sequence are the values of its groups of 8. -/
theorem map_toNat_packGroups (t : List Bit) :
    (packGroups t).map BitVec.toNat = (List.range (t.length / 8)).map (groupValue (t[·]?)) := by
  refine List.ext_getElem (by simp [packGroups_length]) fun m hm hm' => ?_
  rw [List.length_map, List.length_range] at hm'
  have hget := getElem?_packGroups t hm'
  rw [← List.getElem?_map, List.getElem?_eq_getElem hm] at hget
  rw [Option.some.inj hget, List.getElem_map, List.getElem_range]

theorem map_zeroExtended (y : List Byte) :
    (zeroExtended y).map (fun v => v.setWidth 32) = (y.map BitVec.toNat).map (BitVec.ofNat 32) := by
  rw [zeroExtended, List.map_map, List.map_map]
  exact List.map_congr_left fun v _ => BitVec.eq_of_toNat_eq (by simp)

/-- The value of a group of loaded bits, as numbers. -/
theorem groupValue_matrixValues (rows : List (List Word)) (m : Nat) : groupValue ((matrixValues 1 rows)[·]?) m =
    ∑ k ∈ Finset.range 8, ((rows.flatten)[8 * m + k]?).elim 0 (fun v => v.toNat % 2) * 2 ^ (7 - k) := by
  refine Finset.sum_congr rfl fun k _ => ?_
  simp only [matrixValues, List.getElem?_map]
  cases rows.flatten[8 * m + k]? <;> simp

/-- The bytes of loaded bits, as the host reads them. -/
theorem map_bytes_matrixValues (rows : List (List Word)) :
    (zeroExtended (packGroups (matrixValues 1 rows))).map (fun v => v.setWidth 32) =
      (List.range ((matrixValues 1 rows).length / 8)).map fun m => BitVec.ofNat 32
        (∑ k ∈ Finset.range 8, ((rows.flatten)[8 * m + k]?).elim 0 (fun v => v.toNat % 2) * 2 ^ (7 - k)) := by
  rw [map_zeroExtended, map_toNat_packGroups, List.map_map]
  exact List.map_congr_left fun m _ => congrArg (BitVec.ofNat 32) (groupValue_matrixValues rows m)

end Sys2Proof.Machine

/-! ## Runs from a load to the reads of a result (R194, R196) -/

namespace Sys2Proof.Machine

variable {s : State}

/-- The program runs without a fault, and its reads return STATUS, OK but for a sticky ERR, and then `result`. -/
def RunObserves (lines : List HostLine) (s : State) (result : List Word) : Prop :=
  ∃ t, runProgram lines s = .next t ∧
    t.observed = s.observed ++ [BitVec.ofNat 32 (if s.err then 256 else 0)] ++ result

/-- A load before a program leaves ERR and the record of reads as they were. -/
theorem RunObserves.loadm {x : Buffer} {rows : List (List Word)} {c : Nat} {lines : List HostLine} {result : List Word}
    (h : RunObserves lines (s.loadMatrix x rows c) result) (hc : s.cfg.wellFormed = true)
    (hwf : (HostLine.loadm x rows).wellFormed = true) (hrows : ∀ row ∈ rows, row.length = c)
    (hfit : FitsCounts (x.capacity s.cfg) rows.length c) : RunObserves (.loadm x rows :: lines) s result := by
  obtain ⟨t, hrun, hobserved⟩ := h
  obtain ⟨-, -, hcount⟩ := hfit
  rw [State.loadMatrix_err, State.loadMatrix_observed] at hobserved
  exact ⟨t, runProgram_cons (performAll_loadm hc hwf hrows hcount) hrun, hobserved⟩

/-- A command that stores `vs` and the reads of its result. -/
theorem runObserves_of_store (hc : s.cfg.wellFormed = true) {i : Instr} {x : Buffer} {vs : List (BitVec x.width)}
    {sh : Shape} {n : Nat} (hexec : exec i s = .next ((Effect.store x vs sh).apply s)) (hlen : vs.length = n)
    (hcap : n ≤ x.capacity s.cfg) :
    RunObserves [.command i, .rd .status, .read x n] s (vs.map fun v => v.setWidth 32) := by
  subst n
  have hcfg : ((Effect.store x vs sh).apply s).cfg = s.cfg := by simp [Effect.apply]
  have hobserved : ((Effect.store x vs sh).apply s).observed = s.observed := by simp [Effect.apply]
  have hstatus : ((Effect.store x vs sh).apply s).statusWord = BitVec.ofNat 32 (if s.err then 256 else 0) := by
    simp [State.statusWord_eq, Effect.apply]
  refine ⟨_, runProgram_cons (performAll_command hc hexec) (runProgram_cons (performAll_rd_status (hcfg ▸ hc))
    (runProgram_cons (performAll_readElemsFrom (vs := vs) (hcfg ▸ hc) ?_ fun k hk => ?_) rfl)), ?_⟩
  · rw [State.observe_cfg, hcfg, Nat.zero_add]
    exact hcap
  · rw [State.elem_observe, Nat.zero_add, elem_store_of_lt hk, List.getElem?_eq_getElem hk]
  · rw [State.observeAll_observed, State.observe_observed, hobserved, hstatus]

/-- B2BITS and MBITS on the bytes A holds. -/
theorem runObserves_bitsCommand {bytes : List Byte} (h : s.Holds .a bytes) (hc : s.cfg.wellFormed = true) {i : Instr}
    (hi : i = .b2bits ∨ i = .mbits) : RunObserves [.command i, .rd .status, .read .t (8 * bytes.length)] s
      ((bytesToBits bytes).map fun b => b.setWidth 32) := by
  obtain ⟨sh, hexec⟩ : ∃ sh, exec i s = bitsCommand sh s := by
    rcases hi with rfl | rfl
    · exact ⟨_, exec_b2bits s⟩
    · exact ⟨_, exec_mbits s⟩
  exact runObserves_of_store (x := .t) hc (hexec.trans (bitsCommand_of_holds h sh)) (bytesToBits_length bytes)
    (Nat.mul_le_mul_left 8 h.length_le)

/-- BITS2B on the bits T holds, whole groups of 8. -/
theorem runObserves_bits2b {bits : List Bit} (h : s.Holds .t bits) (hc : s.cfg.wellFormed = true)
    (h8 : bits.length % 8 = 0) : RunObserves [.command .bits2b, .rd .status, .read .r (bits.length / 8)] s
      ((zeroExtended (packGroups bits)).map fun v => v.setWidth 32) :=
  runObserves_of_store (x := .r) hc (exec_bits2b_of_holds h h8) ((length_zeroExtended _).trans (packGroups_length bits))
    (Nat.div_le_of_le_mul h.length_le)

/-- MXOR and MSUM on the bytes A and B hold, in matrices of one shape. -/
theorem runObserves_matrixCommand {a b : List Byte} (ha : s.Holds .a a) (hb : s.Holds .b b)
    (hshape : s.shapeA = s.shapeB) (hc : s.cfg.wellFormed = true) {i : Instr} {lane : Byte → Byte → Sum}
    (hi : exec i s = matrixCommand lane s) : RunObserves [.command i, .rd .status, .read .r a.length] s
      ((List.zipWith lane a b).map fun v => v.setWidth 32) := by
  have hlen : a.length = b.length := ha.length_eq.trans ((congrArg Shape.count hshape).trans hb.length_eq.symm)
  have hlanes : (List.zipWith lane a b).length = a.length := by rw [List.length_zipWith, ← hlen, Nat.min_self]
  exact runObserves_of_store (x := .r) hc (hi.trans (matrixCommand_of_holds ha hb hshape lane)) hlanes ha.length_le

/-- A matrix command on two loaded matrices of one shape, where `op` is its lane as the host reads it. -/
theorem runObserves_loaded_matrixCommand {rowsA rowsB : List (List Word)} {c : Nat} (hc : s.cfg.wellFormed = true)
    (hwfA : (HostLine.loadm .a rowsA).wellFormed = true) (hwfB : (HostLine.loadm .b rowsB).wellFormed = true)
    (hrowsA : ∀ row ∈ rowsA, row.length = c) (hrowsB : ∀ row ∈ rowsB, row.length = c) (hlen : rowsB.length = rowsA.length)
    (hfit : FitsCounts s.cfg.cap rowsA.length c) {i : Instr} {lane : Byte → Byte → Sum} {op : Word → Word → Word}
    (hi : ∀ u, exec i u = matrixCommand lane u)
    (hop : ∀ a b : Word, (lane (a.setWidth 8) (b.setWidth 8)).setWidth 32 = op a b) :
    RunObserves [.loadm .a rowsA, .loadm .b rowsB, .command i, .rd .status, .read .r (rowsA.length * c)] s
      (List.zipWith op rowsA.flatten rowsB.flatten) := by
  have hfitB : FitsCounts s.cfg.cap rowsB.length c := hlen.symm ▸ hfit
  have hA : (s.loadMatrix .a rowsA c).Holds .a (matrixValues 8 rowsA) := holds_loadMatrix hc hrowsA hfit
  have hB : ((s.loadMatrix .a rowsA c).loadMatrix .b rowsB c).Holds .b (matrixValues 8 rowsB) :=
    holds_loadMatrix hc hrowsB hfitB
  have hAB : ((s.loadMatrix .a rowsA c).loadMatrix .b rowsB c).Holds .a (matrixValues 8 rowsA) :=
    hA.congr rfl rfl (State.elem_loadMatrix_of_ne (by decide))
  have hrun := runObserves_matrixCommand hAB hB (congrArg (Shape.ofCounts · c) hlen.symm) hc (hi _)
  rw [length_matrixValues hrowsA, map_zipWith_matrixValues hop] at hrun
  exact (hrun.loadm hc hwfB hrowsB hfitB).loadm hc hwfA hrowsA hfit

end Sys2Proof.Machine

/-! ## The statements of 70_reset_and_hazards.md -/

namespace Sys2Proof.Machine

/-- Settles O49: each command runs on what the two loads put in A and B. -/
theorem loadedOperandsMakeCommandsRun : Obligations.LoadedOperandsMakeCommandsRun := by
  intro s rowsA rowsB c hc hwfA hwfB hrowsA hrowsB hlen hr hcols hcount run
  have hfit : FitsCounts s.cfg.cap rowsA.length c := ⟨hr, hcols, hcount⟩
  exact ⟨runObserves_loaded_matrixCommand hc hwfA hwfB hrowsA hrowsB hlen hfit (fun _ => rfl) setWidth_xorLane,
    runObserves_loaded_matrixCommand hc hwfA hwfB hrowsA hrowsB hlen hfit (fun _ => rfl) setWidth_sumLane⟩

/-- Settles O52: each command runs on what the load put in its operand. -/
theorem loadedBytesAndBitsConvert : Obligations.LoadedBytesAndBitsConvert := by
  intro s rows c hc hrows n status bit
  refine ⟨fun hwf hfit i hi => ?_, fun hwf hfit h8 => ?_⟩
  · have hA : (s.loadMatrix .a rows c).Holds .a (matrixValues 8 rows) := holds_loadMatrix hc hrows hfit
    have hrun := runObserves_bitsCommand hA hc hi
    rw [length_matrixValues hrows, map_bytesToBits_matrixValues] at hrun
    exact hrun.loadm hc hwf hrows hfit
  · have hT : (s.loadMatrix .t rows c).Holds .t (matrixValues 1 rows) := holds_loadMatrix hc hrows hfit
    have hrun := runObserves_bits2b hT hc (by rwa [length_matrixValues hrows])
    rw [length_matrixValues hrows, map_bytes_matrixValues, length_matrixValues hrows] at hrun
    exact hrun.loadm hc hwf hrows hfit

/-- Settles O7: with nothing pending a step answers the same state. -/
theorem idleStepChangesNothing : Obligations.IdleStepChangesNothing := fun _ => step_of_nil

/-- Settles O41: nothing is written after reset, and ECODE is 0. -/
theorem resetMeetsTheInvariant : Obligations.ResetMeetsTheInvariant :=
  fun c hc => (State.inv_iff _).2 ⟨hc, Nat.zero_le 4, fun x =>
    ⟨wf_buf_resetWith c x, by cases x <;> exact List.forall_mem_nil _⟩⟩

/-- Settles O42: the step takes the event off the list and resets the block, each of whose fields is the reset value. -/
theorem resetInputSetsTheResetState : Obligations.ResetInputSetsTheResetState := by
  intro s es hp
  refine ⟨State.resetBlock { s with pending := es }, step_of_cons hp, rfl, rfl, rfl, fun x => ?_, fun x i => ?_,
    rfl, rfl, rfl, rfl⟩
  · cases x <;> rfl
  · rw [State.elem, State.buf_resetBlock, Memory.read_nil]

/-- Settles O43: after reset every buffer holds the empty sequence, so no command has anything to read. -/
theorem everyCommandSucceedsRightAfterReset : Obligations.EveryCommandSucceedsRightAfterReset := by
  intro c _ s
  have hholds := holds_nil_resetWith c
  refine ⟨fun _ _ => rfl, ?_, exec_bits2b_of_holds (hholds .t) rfl, ?_, fun x => ?_, ?_, ?_⟩
  · exact bitsCommand_of_holds (hholds .a) _
  · exact (exec_mbits s).trans (bitsCommand_of_holds (hholds .a) _)
  · refine (exec_flat_of_fits (hholds x).fits).trans ?_
    cases x <;> rfl
  · exact matrixCommand_of_holds (hholds .a) (hholds .b) rfl xorLane
  · exact matrixCommand_of_holds (hholds .a) (hholds .b) rfl sumLane

end Sys2Proof.Machine
end
